-- ==== Sys2Proof/Word.lean ====
section
/-! DEFINITION. The one data width of the hardware: the byte (00_scope R5, R7). -/

namespace Sys2Proof

/-- A byte: 8 bits, an unsigned value 0 to 255, bit 7 the most significant (00_scope R7). -/
abbrev Byte := BitVec 8

end Sys2Proof
end

