-- ==== Sys2Proof/Syntax.lean ====
section
/-! DEFINITION. The instructions: one constructor for each row of spec/opcode_table.json (30_encoding R85). -/

namespace Sys2Proof

/-- An instruction with its operand bytes. Each operand is the whole byte that follows the opcode (30_encoding R82): a register
index is not cut to three bits, and a byte above 7 is a legal encoding whose access raises a condition (R83). -/
inductive Instr where
  /-- load immediate `b` into `x[a]` (41 R140) -/
  | ldi (a b : Byte)
  /-- print `x[a]` (41 R141) -/
  | prn (a : Byte)
  /-- halt (43 R160) -/
  | hlt
  /-- multiply (45 R201) -/
  | mul (a b : Byte)
  /-- add (45 R200) -/
  | add (a b : Byte)
  /-- compare (45 R203) -/
  | cmp (a b : Byte)
  /-- bitwise and (44 R180) -/
  | and (a b : Byte)
  /-- bitwise inclusive or (44 R181) -/
  | or (a b : Byte)
  /-- bitwise exclusive or (44 R182) -/
  | xor (a b : Byte)
  /-- bitwise complement (44 R183) -/
  | not (a : Byte)
  /-- shift `x[a]` left by `x[b]` (44 R184) -/
  | shl (a b : Byte)
  /-- shift `x[a]` right by `x[b]` (44 R185) -/
  | shr (a b : Byte)
  /-- remainder (45 R202) -/
  | mod (a b : Byte)
  /-- pop into `x[a]` (42 R151) -/
  | pop (a : Byte)
  /-- push `x[a]` (42 R150) -/
  | push (a : Byte)
  /-- call the subroutine at `x[a]` (43 R164) -/
  | call (a : Byte)
  /-- return from subroutine (43 R165) -/
  | ret
  /-- jump to `x[a]` (43 R161) -/
  | jmp (a : Byte)
  /-- jump to `x[a]` if equal (43 R162) -/
  | jeq (a : Byte)
  /-- jump to `x[a]` if not equal (43 R163) -/
  | jne (a : Byte)
  deriving DecidableEq, Repr

end Sys2Proof
end

