-- ==== Sys2Proof/Decode.lean ====
section
/-! DEFINITION. The dispatch table, the decoder and the encoder (30_encoding R80 to R90). -/

namespace Sys2Proof

/-- The twenty rows of the dispatch table (30_encoding R85), by mnemonic. -/
inductive Opcode where
  | ldi | prn | hlt | mul | add | cmp | and | or | xor | not | shl | shr | mod | pop | push | call | ret | jmp | jeq | jne
  deriving DecidableEq, Repr

/-- The opcode byte of a row (30_encoding R85, column "opcode (binary)"). -/
def Opcode.byte : Opcode → Byte
  | .ldi => 0b10000010#8
  | .prn => 0b01000111#8
  | .hlt => 0b00000001#8
  | .mul => 0b10100010#8
  | .add => 0b10100000#8
  | .cmp => 0b10100111#8
  | .and => 0b10101000#8
  | .or => 0b10101010#8
  | .xor => 0b10101011#8
  | .not => 0b01101001#8
  | .shl => 0b10101100#8
  | .shr => 0b10101101#8
  | .mod => 0b10100100#8
  | .pop => 0b01000110#8
  | .push => 0b01000101#8
  | .call => 0b01010000#8
  | .ret => 0b00010001#8
  | .jmp => 0b01010100#8
  | .jeq => 0b01010101#8
  | .jne => 0b01010110#8

/-- The dispatch table in the document's order (30_encoding R85): a constant of the hardware (10_state R36). -/
def dispatchTable : List Opcode :=
  [.ldi, .prn, .hlt, .mul, .add, .cmp, .and, .or, .xor, .not] ++
  [.shl, .shr, .mod, .pop, .push, .call, .ret, .jmp, .jeq, .jne]

/-- Dispatch by equality on all 8 bits (40 R113); none for the 236 unknown opcodes (30_encoding R87). -/
def dispatch (op : Byte) : Option Opcode := dispatchTable.find? fun o => o.byte == op

/-- `n_code`, bits 7-6: the operand count (30_encoding R81). -/
def Opcode.operandCount (o : Opcode) : Nat := (o.byte.extractLsb 7 6).toNat

/-- `is_alu`, bit 5 (30_encoding R81); it selects no behaviour of its own (R95). -/
def Opcode.isAlu (o : Opcode) : Bool := o.byte.getLsbD 5

/-- `sets_pc`, bit 4: "the handler is responsible for PC placement" (30_encoding R81). -/
def Opcode.setsPc (o : Opcode) : Bool := o.byte.getLsbD 4

/-- How an instruction is made from its operand bytes: the formats F0, F1R, F2RR and F2RI of 30_encoding R84. -/
inductive Form where
  | none (i : Instr)
  | one (mk : Byte → Instr)
  | two (mk : Byte → Byte → Instr)

/-- The format of each row (30_encoding R85, column "format"). -/
def Opcode.form : Opcode → Form
  | .ldi => .two .ldi
  | .prn => .one .prn
  | .hlt => .none .hlt
  | .mul => .two .mul
  | .add => .two .add
  | .cmp => .two .cmp
  | .and => .two .and
  | .or => .two .or
  | .xor => .two .xor
  | .not => .one .not
  | .shl => .two .shl
  | .shr => .two .shr
  | .mod => .two .mod
  | .pop => .one .pop
  | .push => .one .push
  | .call => .one .call
  | .ret => .none .ret
  | .jmp => .one .jmp
  | .jeq => .one .jeq
  | .jne => .one .jne

/-- Why a byte sequence is no instruction. -/
inductive DecodeError where
  /-- there is no byte to take as an opcode -/
  | noOpcode
  /-- the byte is not in the dispatch table (30_encoding R87) -/
  | unknownOpcode (op : Byte)
  /-- the row needs more operand bytes than there are -/
  | missingOperand (o : Opcode)
  deriving DecidableEq, Repr

/-- The operand bytes of row `o`, taken from the bytes after the opcode (30_encoding R82). -/
def decodeOperands (o : Opcode) (bytes : List Byte) : Except DecodeError (Instr × List Byte) :=
  match o.form, bytes with
  | .none i, rest => .ok (i, rest)
  | .one mk, a :: rest => .ok (mk a, rest)
  | .one _, [] => .error (.missingOperand o)
  | .two mk, a :: b :: rest => .ok (mk a b, rest)
  | .two _, [_] => .error (.missingOperand o)
  | .two _, [] => .error (.missingOperand o)

/-- The instruction at the head of a byte sequence and the bytes after it. The opcode is looked up before any operand byte is
taken: "a byte that is not in the table has no length" (30_encoding R90; 40 R113). -/
def decode : List Byte → Except DecodeError (Instr × List Byte)
  | [] => .error .noOpcode
  | op :: rest =>
    match dispatch op with
    | none => .error (.unknownOpcode op)
    | some o => decodeOperands o rest

/-- The bytes of an instruction word numbered as spec/opcode_table.json numbers it: the first byte is bits 7 to 0; bits from
`nbits` on are 0. Three bytes, the longest instruction (30_encoding R80, R90). -/
def tableWordBytes (nbits w : Nat) : List Byte :=
  let v := w % 2 ^ nbits
  [BitVec.ofNat 8 v, BitVec.ofNat 8 (v / 2 ^ 8), BitVec.ofNat 8 (v / 2 ^ 16)]

/-- The instruction the decoder reads from a table word. -/
def decodeTableWord (nbits w : Nat) : Option Instr :=
  match decode (tableWordBytes nbits w) with
  | .ok (i, _) => some i
  | .error _ => none

/-- The row of the dispatch table an instruction belongs to (30_encoding R85). -/
def Instr.opcode : Instr → Opcode
  | .ldi _ _ => .ldi
  | .prn _ => .prn
  | .hlt => .hlt
  | .mul _ _ => .mul
  | .add _ _ => .add
  | .cmp _ _ => .cmp
  | .and _ _ => .and
  | .or _ _ => .or
  | .xor _ _ => .xor
  | .not _ => .not
  | .shl _ _ => .shl
  | .shr _ _ => .shr
  | .mod _ _ => .mod
  | .pop _ => .pop
  | .push _ => .push
  | .call _ => .call
  | .ret => .ret
  | .jmp _ => .jmp
  | .jeq _ => .jeq
  | .jne _ => .jne

/-- The operand bytes at ascending addresses, `a` first (30_encoding R82, R84). -/
def Instr.operands : Instr → List Byte
  | .ldi a b => [a, b]
  | .prn a => [a]
  | .hlt => []
  | .mul a b => [a, b]
  | .add a b => [a, b]
  | .cmp a b => [a, b]
  | .and a b => [a, b]
  | .or a b => [a, b]
  | .xor a b => [a, b]
  | .not a => [a]
  | .shl a b => [a, b]
  | .shr a b => [a, b]
  | .mod a b => [a, b]
  | .pop a => [a]
  | .push a => [a]
  | .call a => [a]
  | .ret => []
  | .jmp a => [a]
  | .jeq a => [a]
  | .jne a => [a]

/-- The bytes of an instruction: "one opcode byte plus 0, 1, or 2 operand bytes" (30_encoding R80). -/
def encode (i : Instr) : List Byte := i.opcode.byte :: i.operands

end Sys2Proof
end

