-- ==== Sys2Proof/Config.lean ====
section
/-! DEFINITION. The sizes the document fixes (00_scope R5) and the parameters the spec decides (00_scope R6): every one has a
value in the spec, so no constant here is left open. -/

namespace Sys2Proof.Config

/-- `MEM_SIZE` (00_scope R5): addresses 0 to 255. -/
def memSize : Nat := 256

/-- `SP_RESET` (00_scope R5, 70 R261): `256 − 12`. -/
def spReset : Byte := 244#8

/-- `RESET_GPR` (10_state R38, D5). DESIGN CHOICE of the spec, unsafe: the source is silent (log 1). -/
def resetGpr : Byte := 0#8

/-- `RESET_PC` (10_state R38, D6). DESIGN CHOICE of the spec, unsafe (log 2). -/
def resetPc : Nat := 0

/-- `RESET_FL` (10_state R38, D7). DESIGN CHOICE of the spec, unsafe: the source is silent (log 3). -/
def resetFl : BitVec 3 := 0#3

/-- `RESET_MEM` (10_state R38, D8): what a cell nothing has written reads as. DESIGN CHOICE of the spec, unsafe (log 4). -/
def resetMem : Byte := 0#8

/-- `FL_E_BIT` (10_state R29, D9). DESIGN CHOICE of the spec, unsafe for a host that reads `FL` (log 8). -/
def flEBit : Nat := 0

/-- `FL_G_BIT` (10_state R29, D9; log 8). -/
def flGBit : Nat := 1

/-- `FL_L_BIT` (10_state R29, D9; log 8). -/
def flLBit : Nat := 2

end Sys2Proof.Config
end

