-- ==== Sys2Proof/Machine/State.lean ====
section
/-! DEFINITION. The whole architectural state (10_state R39), the fatal conditions (60 R220), and the state after reset
(10_state R38, 70 R260). -/

namespace Sys2Proof.Machine

/-- The four fatal conditions (60 R220); raising one is an effect the spec describes (60 R229), not a stop of the model. -/
inductive Cause where
  /-- the ALU is given an unknown tag; no instruction raises it (60 R221) -/
  | unsupportedOperation
  /-- MOD, or the ALU's DIV, with a zero divisor (60 R222) -/
  | divisionByZero
  /-- the byte at `PC` is not in the dispatch table (60 R223) -/
  | unknownOpcode
  /-- an address above 255 or a register index above 7 (60 R224) -/
  | outOfBoundsAddress
  deriving DecidableEq, Repr

/-- What `ERR` holds when it is not `None`: the condition and the value of `PC` when it was raised (10_state R33). -/
structure ErrorReport where
  cause : Cause
  pc : Nat
  deriving DecidableEq, Repr

/-- The running state (10_state R32). -/
inductive RunState where
  | stopped
  | running
  deriving DecidableEq, Repr

/-- The index of a general register, 0 to 7 (10_state R20). -/
abbrev RegIdx := Fin 8

/-- `SP` is an alias of `x[7]` (10_state R21). -/
def spIdx : RegIdx := 7

/-- Memory `M` (10_state R35): the cells that differ from the reset content, by rising address. -/
abbrev Memory := List Host.Cell

/-- The architectural state (10_state R39). -/
structure State where
  /-- the general registers `x[0]` to `x[7]` (10_state R20) -/
  regs : Vector Byte 8
  /-- the program counter `PC`, 0 to 256 (10_state R25, R27) -/
  pc : Nat
  /-- the flags `FL` (10_state R28) -/
  fl : BitVec 3
  /-- the running state `RUN` (10_state R32) -/
  run : RunState
  /-- the error report `ERR` (10_state R33) -/
  err : Option ErrorReport
  /-- the output trace `OUT`, oldest first (10_state R34) -/
  out : List Byte
  /-- the memory `M` (10_state R35) -/
  mem : Memory
  deriving DecidableEq, Repr

/-- Reasons for which the MODEL stops. There are none: every condition of this hardware has the effect 60 R229 gives it and is a
next state (log 17), so no meaning and no step answers a fault. -/
inductive Fault
  deriving DecidableEq, Repr

/-- Reasons for which the model gives an instruction no meaning. -/
inductive Refusal where
  /-- raised by an arm of exec for an instruction that has no meaning yet (safe: nothing is claimed of it); no arm is left so -/
  | notModelled (mnemonic : String)
  deriving DecidableEq, Repr

/-- The state after reset (10_state R38, 70 R260). The document gives `x[7]` and `RUN`; the other values are the spec's
decisions (log 1 to 4, 16, 17). -/
def State.reset : State where
  regs := #v[Config.resetGpr, Config.resetGpr, Config.resetGpr, Config.resetGpr,
    Config.resetGpr, Config.resetGpr, Config.resetGpr, Config.spReset]
  pc := Config.resetPc
  fl := Config.resetFl
  run := .stopped
  err := none
  out := []
  mem := []

end Sys2Proof.Machine
end

