-- ==== Sys2Proof/Machine/Ops.lean ====
section
/-! DEFINITION. The named operations over registers, memory, `OUT`, `RUN` and `PC`, and raising a fatal condition. -/

namespace Sys2Proof.Machine

/-- `mask8(v) = v mod 256` on a mathematical integer (00_scope R8). -/
def mask8 (v : Int) : Byte := BitVec.ofInt 8 v

/-- Read `x[i]` (00_scope R9). -/
def State.reg (s : State) (i : RegIdx) : Byte := s.regs[i]

/-- `x[i] <- v` stores `mask8(v)` (10_state R22). -/
def State.writeReg (s : State) (i : RegIdx) (v : Int) : State := { s with regs := s.regs.set i (mask8 v) }

/-- `SP`, that is `x[7]` (10_state R21). -/
def State.sp (s : State) : Byte := s.reg spIdx

/-- `PC <- t` (00_scope R9). -/
def State.setPc (s : State) (t : Nat) : State := { s with pc := t }

/-- `FL <- f`, all three bits (10_state R30). -/
def State.setFl (s : State) (f : BitVec 3) : State := { s with fl := f }

/-- `emit(v)`: append a byte to `OUT` (10_state R34). -/
def State.emit (s : State) (v : Byte) : State := { s with out := s.out ++ [v] }

/-- `RUN <- Stopped` (43 R160). -/
def State.halt (s : State) : State := { s with run := .stopped }

/-! Memory: 256 cells, held as a sorted list of the cells that differ from `RESET_MEM`. -/

/-- The content of cell `a`; a cell that is not listed holds `RESET_MEM` (10_state R38, D8; log 4). -/
def Memory.peek : Memory → Nat → Byte
  | [], _ => Config.resetMem
  | (k, v) :: rest, a => if k = a then v else Memory.peek rest a

/-- List the cell `(a, v)` at its place by address. -/
def Memory.insertCell (a : Nat) (v : Byte) : Memory → Memory
  | [] => [(a, v)]
  | (k, w) :: rest => if a < k then (a, v) :: (k, w) :: rest else (k, w) :: Memory.insertCell a v rest

/-- The memory with cell `a` holding `v`, in canonical form again. -/
def Memory.poke (m : Memory) (a : Nat) (v : Byte) : Memory :=
  let others := m.filter fun c => c.1 != a
  if v = Config.resetMem then others else Memory.insertCell a v others

/-- The canonical form from address `lo` on: addresses rise, stay below 256, and no listed cell holds `RESET_MEM`. -/
def Memory.wfFrom (lo : Nat) : Memory → Bool
  | [] => true
  | (k, v) :: rest =>
    decide (lo ≤ k) && decide (k < Config.memSize) && (v != Config.resetMem) && Memory.wfFrom (k + 1) rest

/-- The canonical form of memory (log 4). -/
def Memory.wf (m : Memory) : Bool := Memory.wfFrom 0 m

/-- `MemRead(addr, 1)` (20_memory R51). -/
def State.memRead (s : State) (addr : Nat) : Except Cause Byte :=
  if addr < Config.memSize then .ok (s.mem.peek addr) else .error .outOfBoundsAddress

/-- `M[addr] <- v` at a valid address (20_memory R52). -/
def State.setCell (s : State) (addr : Nat) (v : Byte) : State := { s with mem := s.mem.poke addr v }

/-- `MemWrite(addr, 1, v)` (20_memory R52). -/
def State.memWrite (s : State) (addr : Nat) (v : Byte) : Except Cause State :=
  if addr < Config.memSize then .ok (s.setCell addr v) else .error .outOfBoundsAddress

/-! The stack pointer moves of 42_stack and 43_control_flow. -/

/-- `x[7] <- (x[7] - 1) mod 256` (42 R150, 43 R164); it wraps at 0 (D10; log 9). -/
def State.decSp (s : State) : State := s.writeReg spIdx ((s.sp.toNat : Int) - 1)

/-- `x[7] <- (x[7] + 1) mod 256` (42 R151, 43 R165); it wraps at 255 (D10; log 9). -/
def State.incSp (s : State) : State := s.writeReg spIdx ((s.sp.toNat : Int) + 1)

/-! Raising a fatal condition. It is the only exception entry of this hardware and it has no return (60 R229, R231). -/

/-- `raise C`: `ERR <- (C, PC)`, `RUN <- Stopped`, nothing else (60 R229). -/
def State.raise (s : State) (c : Cause) : State := { s with err := some ⟨c, s.pc⟩, run := .stopped }

/-- The cause codes of a status port (60 R226, D13). DESIGN CHOICE of the spec, unobservable by programs (log 12). -/
def Cause.code : Cause → Nat
  | .unsupportedOperation => 1
  | .divisionByZero => 2
  | .unknownOpcode => 3
  | .outOfBoundsAddress => 4

/-- What a status port shows of `ERR`: 0 for `None`, else the cause's code (60 R226). -/
def State.errCode (s : State) : Nat :=
  match s.err with
  | none => 0
  | some e => e.cause.code

/-! The end of a step (40 R111, lines 4 and 5). -/

/-- The loop's program-counter update after row `o`'s handler: "if op[4] = 0 then PC <- PC + 1 + n" (40 R111, R117). The sum is
kept at 256, never wrapped (10_state R27, D2; log 5). -/
def loopAdvance (o : Opcode) (s : State) : State :=
  if o.setsPc then s else s.setPc (s.pc + 1 + o.operandCount)

/-- Lines 4 and 5 of the step for row `o` (40 R111): a handler that raises leaves only the report (60 R229, R230), any other
handler's state goes through the program-counter update. -/
def finish (o : Opcode) (s : State) (handler : Except Cause State) : Host.Outcome State Fault Refusal :=
  match handler with
  | .ok t => .next (loopAdvance o t)
  | .error c => .next (s.raise c)

end Sys2Proof.Machine
end

