-- ==== Sys2Proof/Machine/Boot.lean ====
section
/-! DEFINITION. What the host can do to the core: reset, load a program image, start (00_scope R11, 40 R126, 70 R260, R262). -/

namespace Sys2Proof.Machine

/-- The bytes `bs` written to ascending addresses from `a` (70 R262). -/
def Memory.loadFrom (m : Memory) (a : Nat) : List Byte → Memory
  | [] => m
  | b :: bs => Memory.loadFrom (m.poke a b) (a + 1) bs

/-- Between reset and `start`: everything but memory is as reset left it. A core that has run is not so again before the next reset,
because it stops with a report or past a HLT, at `PC >= 1` (D26; log 18). -/
abbrev State.awaitsImage (s : State) : Prop := s = { State.reset with mem := s.mem }

/-- `load(image)`: byte `k` of the image to `M[k]`, only between reset and `start` (D26; 20_memory R54; 70 R262); an image longer
than 256 bytes is refused by the host and changes nothing (70 R262, D8; log 25). -/
def State.load (s : State) (image : List Byte) : State :=
  if s.awaitsImage ∧ image.length ≤ Config.memSize then { s with mem := s.mem.loadFrom 0 image } else s

/-- `start`: accepted when `RUN = Stopped` and `ERR = None`; sets `RUN <- Running` and changes nothing else (40 R126, D20). -/
def State.start (s : State) : State :=
  if s.run = .stopped ∧ s.err = none then { s with run := .running } else s

/-- The host's actions (D1). -/
inductive HostAction where
  | reset
  | load (image : List Byte)
  | start
  deriving DecidableEq, Repr

/-- What an action does where it is applied. Reset "may be applied in any state" and nothing survives it (70 R260). -/
def actionEffect : HostAction → State → State
  | .reset, _ => State.reset
  | .load image, s => s.load image
  | .start, s => s.start

/-- The host's moves. "The host has no move while `RUN = Running`" (00_scope R11, D26), so that is none, reset not excepted; in a
stopped core an action has its effect (log 18). -/
def hostAct (action : HostAction) (s : State) : Option State :=
  match s.run with
  | .running => none
  | .stopped => some (actionEffect action s)

end Sys2Proof.Machine
end

