-- ==== Sys2Proof/Machine/Flags.lean ====
section
/-! DEFINITION. The flags `FL` (10_state R28 to R31): their bits and the one flag computation, CMP's (45 R203). -/

namespace Sys2Proof.Machine

/-- `FL` with only `EQUAL` set (10_state R29). -/
def flEqual : BitVec 3 := 1#3 <<< Config.flEBit

/-- `FL` with only `GREATER_THAN` set (10_state R29). -/
def flGreater : BitVec 3 := 1#3 <<< Config.flGBit

/-- `FL` with only `LESS_THAN` set (10_state R29). -/
def flLess : BitVec 3 := 1#3 <<< Config.flLBit

/-- `FL.E` (10_state R28). -/
def State.flagE (s : State) : Bool := s.fl.getLsbD Config.flEBit

/-- `FL.G` (10_state R28). -/
def State.flagG (s : State) : Bool := s.fl.getLsbD Config.flGBit

/-- `FL.L` (10_state R28). -/
def State.flagL (s : State) : Bool := s.fl.getLsbD Config.flLBit

/-- The flags CMP sets for the values `x`, `y`: unsigned, exactly one bit (45 R203). -/
def compareFlags (x y : Byte) : BitVec 3 :=
  if x.toNat = y.toNat then flEqual
  else if y.toNat < x.toNat then flGreater
  else flLess

end Sys2Proof.Machine
end

