-- ==== Sys2Proof/Machine/Operands.lean ====
section
/-! DEFINITION. The one operand form that can fail: the register operand (30_encoding R83, 40 R115). An immediate operand
(LDI's `b`) is its byte, used as is. -/

namespace Sys2Proof.Machine

/-- `reg(k)`: "if k > 7 then raise OutOfBoundsAddress else k" (40 R115). The whole byte is the index. -/
def regOperand (k : Byte) : Except Cause RegIdx :=
  if h : k.toNat < 8 then .ok ⟨k.toNat, h⟩ else .error .outOfBoundsAddress

/-- Go on with the register that operand byte `k` names, or raise (40 R115). -/
def withReg {α : Type} (k : Byte) (f : RegIdx → Except Cause α) : Except Cause α :=
  match regOperand k with
  | .ok i => f i
  | .error c => .error c

end Sys2Proof.Machine
end

