-- ==== Sys2Proof/Machine/Alu.lean ====
section
/-! DEFINITION. The ALU (40 R120 to R125): twelve operation tags, ten of which the dispatch table uses. Results are exact
integers, masked where they are written (40 R121). -/

namespace Sys2Proof.Machine

/-- The ALU's operation tags (40 R122): exactly twelve. SUB and DIV have no opcode (30_encoding R89; log 13). -/
inductive AluTag where
  | add | sub | mul | div | mod | and | or | xor | not | shl | shr | cmp
  deriving DecidableEq, Repr

/-- ADD (45 R200). -/
def aluAdd (x y : Nat) : Except Cause Int := .ok ((x : Int) + (y : Int))

/-- SUB (45 R204). -/
def aluSub (x y : Nat) : Except Cause Int := .ok ((x : Int) - (y : Int))

/-- MUL (45 R201). -/
def aluMul (x y : Nat) : Except Cause Int := .ok ((x : Int) * (y : Int))

/-- DIV: the floor of the quotient, or `DivisionByZero` (45 R205, 40 R124). -/
def aluDiv (x y : Nat) : Except Cause Int :=
  if y = 0 then .error .divisionByZero else .ok ((x / y : Nat) : Int)

/-- MOD: the remainder, or `DivisionByZero` (45 R202, 40 R124). -/
def aluMod (x y : Nat) : Except Cause Int :=
  if y = 0 then .error .divisionByZero else .ok ((x % y : Nat) : Int)

/-- AND (44 R180). -/
def aluAnd (x y : Nat) : Except Cause Int := .ok ((x &&& y : Nat) : Int)

/-- OR (44 R181). -/
def aluOr (x y : Nat) : Except Cause Int := .ok ((x ||| y : Nat) : Int)

/-- XOR (44 R182). -/
def aluXor (x y : Nat) : Except Cause Int := .ok ((x ^^^ y : Nat) : Int)

/-- NOT: "255 - x[i]" (44 R183). -/
def aluNot (x : Nat) : Int := 255 - (x : Int)

/-- SHL: the whole count, `x * 2^s` before masking (44 R184, D16; log 14). -/
def aluShl (x s : Nat) : Except Cause Int := .ok ((x * 2 ^ s : Nat) : Int)

/-- SHR: the whole count, `floor(x / 2^s)`, zeros enter at the top (44 R185, D16; log 14). -/
def aluShr (x s : Nat) : Except Cause Int := .ok ((x / 2 ^ s : Nat) : Int)

/-- A two-operand operation: "read both registers, compute, mask to 8 bits, write back into the first register" (40 R120). The
indices are checked `a` then `b`, before the value conditions (40 R115, R116), and both are read before the write (40 R125). -/
def aluBinary (f : Nat → Nat → Except Cause Int) (a b : Byte) (s : State) : Except Cause State :=
  withReg a fun i => withReg b fun j =>
    match f (s.reg i).toNat (s.reg j).toNat with
    | .ok v => .ok (s.writeReg i v)
    | .error c => .error c

/-- NOT "is unary: ignores the second register" (44 R183). -/
def aluUnary (f : Nat → Int) (a : Byte) (s : State) : Except Cause State :=
  withReg a fun i => .ok (s.writeReg i (f (s.reg i).toNat))

/-- CMP writes `FL` and no register (45 R203). -/
def aluCompare (a b : Byte) (s : State) : Except Cause State :=
  withReg a fun i => withReg b fun j => .ok (s.setFl (compareFlags (s.reg i) (s.reg j)))

/-- The ALU's interface: an operation tag and two register indices (40 R120). `none` stands for a tag input that is not one of
the twelve (60 R221); it is refused before the indices are looked at (DESIGN CHOICE, safe: unreachable; log 23). -/
def alu (tag : Option AluTag) (a b : Byte) (s : State) : Except Cause State :=
  match tag with
  | none => .error .unsupportedOperation
  | some .add => aluBinary aluAdd a b s
  | some .sub => aluBinary aluSub a b s
  | some .mul => aluBinary aluMul a b s
  | some .div => aluBinary aluDiv a b s
  | some .mod => aluBinary aluMod a b s
  | some .and => aluBinary aluAnd a b s
  | some .or => aluBinary aluOr a b s
  | some .xor => aluBinary aluXor a b s
  | some .not => aluUnary aluNot a s
  | some .shl => aluBinary aluShl a b s
  | some .shr => aluBinary aluShr a b s
  | some .cmp => aluCompare a b s

end Sys2Proof.Machine
end

