-- ==== Sys2Proof/Machine/Arithmetic.lean ====
section
/-! DEFINITION. ADD, MUL, MOD and CMP (45_alu_arithmetic): each row invokes the ALU with its tag (40 R123). -/

namespace Sys2Proof.Machine

/-- ADD (45 R200). -/
def execAdd (a b : Byte) (s : State) : Host.Outcome State Fault Refusal := finish .add s (alu (some .add) a b s)

/-- MUL (45 R201). -/
def execMul (a b : Byte) (s : State) : Host.Outcome State Fault Refusal := finish .mul s (alu (some .mul) a b s)

/-- MOD (45 R202). -/
def execMod (a b : Byte) (s : State) : Host.Outcome State Fault Refusal := finish .mod s (alu (some .mod) a b s)

/-- CMP (45 R203). -/
def execCmp (a b : Byte) (s : State) : Host.Outcome State Fault Refusal := finish .cmp s (alu (some .cmp) a b s)

end Sys2Proof.Machine
end

