-- ==== Sys2Proof/Machine/Bitwise.lean ====
section
/-! DEFINITION. AND, OR, XOR, NOT, SHL and SHR (44_alu_bitwise): each row invokes the ALU with its tag (40 R123). -/

namespace Sys2Proof.Machine

/-- AND (44 R180). -/
def execAnd (a b : Byte) (s : State) : Host.Outcome State Fault Refusal := finish .and s (alu (some .and) a b s)

/-- OR (44 R181). -/
def execOr (a b : Byte) (s : State) : Host.Outcome State Fault Refusal := finish .or s (alu (some .or) a b s)

/-- XOR (44 R182). -/
def execXor (a b : Byte) (s : State) : Host.Outcome State Fault Refusal := finish .xor s (alu (some .xor) a b s)

/-- NOT (44 R183): one operand byte; the ALU's second input does not exist for it, and the index 0 given here is not used. -/
def execNot (a : Byte) (s : State) : Host.Outcome State Fault Refusal := finish .not s (alu (some .not) a 0#8 s)

/-- SHL (44 R184). -/
def execShl (a b : Byte) (s : State) : Host.Outcome State Fault Refusal := finish .shl s (alu (some .shl) a b s)

/-- SHR (44 R185). -/
def execShr (a b : Byte) (s : State) : Host.Outcome State Fault Refusal := finish .shr s (alu (some .shr) a b s)

end Sys2Proof.Machine
end

