-- ==== Sys2Proof/Machine/ControlFlow.lean ====
section
/-! DEFINITION. HLT, JMP, JEQ, JNE, CALL and RET (43_control_flow). -/

namespace Sys2Proof.Machine

/-- HLT (43 R160): `RUN <- Stopped`; the loop then moves `PC` past it. -/
def execHlt (s : State) : Host.Outcome State Fault Refusal := finish .hlt s (.ok s.halt)

/-- `PC <- x[a]` (43 R161). -/
def jumpTo (a : Byte) (s : State) : Except Cause State := withReg a fun i => .ok (s.setPc (s.reg i).toNat)

/-- A conditional jump: the register is accessed only when the jump is taken (43 R162, R163; 40 R115), else the handler itself
does `PC <- PC + 2` (40 R117). -/
def jumpIf (taken : Bool) (a : Byte) (s : State) : Except Cause State :=
  if taken then jumpTo a s else .ok (s.setPc (s.pc + 2))

/-- JMP (43 R161). -/
def execJmp (a : Byte) (s : State) : Host.Outcome State Fault Refusal := finish .jmp s (jumpTo a s)

/-- JEQ (43 R162): taken if `FL.E = 1`. -/
def execJeq (a : Byte) (s : State) : Host.Outcome State Fault Refusal := finish .jeq s (jumpIf s.flagE a s)

/-- JNE (43 R163): taken if `FL.E = 0`. -/
def execJne (a : Byte) (s : State) : Host.Outcome State Fault Refusal := finish .jne s (jumpIf (!s.flagE) a s)

/-- CALL's handler (43 R164): a return address above 255 raises (D4; log 7); the target is read after the decrement (D17). -/
def handleCall (a : Byte) (s : State) : Except Cause State :=
  withReg a fun i =>
    if 255 < s.pc + 2 then .error .outOfBoundsAddress
    else
      let s1 := s.decSp
      match s1.memWrite s1.sp.toNat (BitVec.ofNat 8 (s.pc + 2)) with
      | .ok s2 => .ok (s2.setPc (s2.reg i).toNat)
      | .error c => .error c

/-- CALL (43 R164). -/
def execCall (a : Byte) (s : State) : Host.Outcome State Fault Refusal := finish .call s (handleCall a s)

/-- RET's handler (43 R165): `PC` receives the byte at `SP`, then `SP` is incremented. -/
def handleRet (s : State) : Except Cause State :=
  match s.memRead s.sp.toNat with
  | .ok v => .ok (s.setPc v.toNat).incSp
  | .error c => .error c

/-- RET (43 R165). -/
def execRet (s : State) : Host.Outcome State Fault Refusal := finish .ret s (handleRet s)

end Sys2Proof.Machine
end

