-- ==== Sys2Proof/Machine/DataMovement.lean ====
section
/-! DEFINITION. LDI and PRN (41_data_movement). -/

namespace Sys2Proof.Machine

/-- LDI (41 R140): `x[a] <- b`. -/
def execLdi (a b : Byte) (s : State) : Host.Outcome State Fault Refusal :=
  finish .ldi s (withReg a fun i => .ok (s.writeReg i b.toNat))

/-- PRN (41 R141): append `x[a]` to `OUT`. -/
def execPrn (a : Byte) (s : State) : Host.Outcome State Fault Refusal :=
  finish .prn s (withReg a fun i => .ok (s.emit (s.reg i)))

end Sys2Proof.Machine
end

