-- ==== Sys2Proof/Machine/Stack.lean ====
section
/-! DEFINITION. PUSH and POP (42_stack). The sub-steps run in the order written and each sees the earlier ones (00_scope R10,
D17; log 15). -/

namespace Sys2Proof.Machine

/-- PUSH's handler (42 R150): decrement `SP`, then store `x[i]`, read after the decrement, at the new `SP`. -/
def handlePush (a : Byte) (s : State) : Except Cause State :=
  withReg a fun i =>
    let s1 := s.decSp
    s1.memWrite s1.sp.toNat (s1.reg i)

/-- PUSH (42 R150). -/
def execPush (a : Byte) (s : State) : Host.Outcome State Fault Refusal := finish .push s (handlePush a s)

/-- POP's handler (42 R151): `x[i]` receives the byte at `SP`, then `SP`, read after that, is incremented. -/
def handlePop (a : Byte) (s : State) : Except Cause State :=
  withReg a fun i =>
    match s.memRead s.sp.toNat with
    | .ok v => .ok (s.writeReg i v.toNat).incSp
    | .error c => .error c

/-- POP (42 R151). -/
def execPop (a : Byte) (s : State) : Host.Outcome State Fault Refusal := finish .pop s (handlePop a s)

end Sys2Proof.Machine
end

