-- ==== Sys2Proof/Machine/Fetch.lean ====
section
/-! DEFINITION. Fetching and decoding the next instruction (40 R111 lines 1 to 3, R112 to R114). -/

namespace Sys2Proof.Machine

/-- The bytes of memory from `addr` on, at most `count`, none beyond the last cell. -/
def Memory.codeBytes (m : Memory) : Nat → Nat → List Byte
  | _, 0 => []
  | addr, count + 1 => if addr < Config.memSize then m.peek addr :: Memory.codeBytes m (addr + 1) count else []

/-- The condition the step raises where the bytes at `PC` give no instruction: no opcode byte when `PC > 255` (40 R112), an
opcode outside the table (40 R113), an operand byte beyond address 255 (40 R114). -/
def fetchCause : DecodeError → Cause
  | .noOpcode => .outOfBoundsAddress
  | .unknownOpcode _ => .unknownOpcode
  | .missingOperand _ => .outOfBoundsAddress

/-- Lines 1 to 3 of the step (40 R111). The decoder uses only the bytes the operand count calls for (40 R114); that the model
looks at up to three bytes that exist cannot be observed, since a read has no side effect (20_memory R57; log 6). -/
def fetch (s : State) : Except Cause Instr :=
  match decode (s.mem.codeBytes s.pc 3) with
  | .ok (i, _) => .ok i
  | .error e => .error (fetchCause e)

end Sys2Proof.Machine
end

