-- ==== Sys2Proof/Machine/Step.lean ====
section
/-! DEFINITION. One step of the execution loop (40 R110, R111). -/

namespace Sys2Proof.Machine

/-- One step. While `RUN = Stopped` "the core performs no step and changes no state" (40 R110): the answer is the same state
(log 19). While `RUN = Running` the instruction at `PC` is fetched and executed, or its fetch raises (40 R111). -/
def step (s : State) : Host.Outcome State Fault Refusal :=
  match s.run with
  | .stopped => .next s
  | .running =>
    match fetch s with
    | .ok i => exec i s
    | .error c => .next (s.raise c)

/-- `s` with an instruction word of the opcode table stored at `PC` and `RUN = Running`, so that the next step fetches and runs
it. Bytes that would lie beyond address 255 do not exist. It stands for the host's load and start (log 20). -/
def State.withFetchWord (s : State) (nbits w : Nat) : State :=
  { s with
    mem := s.mem.loadFrom s.pc ((tableWordBytes nbits w).take (Config.memSize - s.pc))
    run := .running }

end Sys2Proof.Machine
end

