-- ==== Sys2Proof/Safety.lean ====
section
/-! DEFINITION. The terms claims use: how a run has ended, the invariant of the machine, the registers an instruction accesses. -/

namespace Sys2Proof.Machine

/-- The run ended normally: HLT was executed (40 R118), or nothing has started yet (70 R260). -/
def State.stoppedCleanly (s : State) : Prop := s.run = .stopped ∧ s.err = none

/-- The run ended with a fatal condition (40 R118). -/
def State.failed (s : State) : Prop := s.err ≠ none

/-- The value of `FL` is one a run can reach (10_state R31). -/
def flLegal (f : BitVec 3) : Prop := f = 0#3 ∨ f = flEqual ∨ f = flGreater ∨ f = flLess

/-- The invariants of 10_state R39, and that a report gives the `PC` the core still has (60 R229, R231). -/
structure Inv (s : State) : Prop where
  /-- memory is in canonical form: 256 cells at most, each address once -/
  memory : s.mem.wf = true
  /-- `PC <= 256` -/
  pc_le : s.pc ≤ 256
  /-- `FL` is 0b000, 0b001, 0b010 or 0b100 -/
  fl : flLegal s.fl
  /-- `ERR != None` implies `RUN = Stopped`, and the reported `PC` is the core's -/
  err : ∀ e, s.err = some e → s.run = .stopped ∧ e.pc = s.pc

/-- The register operand bytes the handler of `i` accesses in state `s`, in the order it checks them (40 R115): an untaken JEQ
or JNE accesses none, and LDI's `b` is an immediate. -/
def accessedOperands (i : Instr) (s : State) : List Byte :=
  match i with
  | .ldi a _ => [a]
  | .prn a => [a]
  | .hlt => []
  | .mul a b => [a, b]
  | .add a b => [a, b]
  | .cmp a b => [a, b]
  | .and a b => [a, b]
  | .or a b => [a, b]
  | .xor a b => [a, b]
  | .not a => [a]
  | .shl a b => [a, b]
  | .shr a b => [a, b]
  | .mod a b => [a, b]
  | .pop a => [a]
  | .push a => [a]
  | .call a => [a]
  | .ret => []
  | .jmp a => [a]
  | .jeq a => if s.flagE then [a] else []
  | .jne a => if s.flagE then [] else [a]

/-- The registers the handler of `i` may write (10_state R24): explicit destinations, and `x[7]` for the stack instructions. -/
def writesRegister (i : Instr) (j : RegIdx) : Prop :=
  match i with
  | .ldi a _ => a.toNat = j.val
  | .prn _ => False
  | .hlt => False
  | .mul a _ => a.toNat = j.val
  | .add a _ => a.toNat = j.val
  | .cmp _ _ => False
  | .and a _ => a.toNat = j.val
  | .or a _ => a.toNat = j.val
  | .xor a _ => a.toNat = j.val
  | .not a => a.toNat = j.val
  | .shl a _ => a.toNat = j.val
  | .shr a _ => a.toNat = j.val
  | .mod a _ => a.toNat = j.val
  | .pop a => a.toNat = j.val ∨ j = spIdx
  | .push _ => j = spIdx
  | .call _ => j = spIdx
  | .ret => j = spIdx
  | .jmp _ => False
  | .jeq _ => False
  | .jne _ => False

/-- Operand byte `k` names register `i` (30_encoding R83). -/
def operandNames (k : Byte) (i : RegIdx) : Prop := k.toNat = i.val

/-- Every general register but those in `W` is as before. -/
def sameRegsBut (W : RegIdx → Prop) (s t : State) : Prop := ∀ j, ¬ W j → t.reg j = s.reg j

/-- Every general register is as before. -/
def sameRegs (s t : State) : Prop := ∀ j, t.reg j = s.reg j

/-- Every byte of memory reads as before. -/
def sameMemory (s t : State) : Prop := ∀ addr, t.mem.peek addr = s.mem.peek addr

/-- `RUN`, `ERR` and `OUT` are as before. -/
def sameStatus (s t : State) : Prop := t.run = s.run ∧ t.err = s.err ∧ t.out = s.out

/-- `t` is `s` with `x[i]` holding `v` and `PC` holding `pc`; everything else is as in `s`. -/
def wroteReg (s t : State) (i : RegIdx) (v pc : Nat) : Prop :=
  (t.reg i).toNat = v ∧ sameRegsBut (fun j => j = i) s t ∧ t.pc = pc ∧ t.fl = s.fl ∧ sameStatus s t ∧ sameMemory s t

/-- `t` is `s` with `PC` holding `pc`; everything else is as in `s`. -/
def movedPc (s t : State) (pc : Nat) : Prop :=
  t.pc = pc ∧ sameRegs s t ∧ t.fl = s.fl ∧ sameStatus s t ∧ sameMemory s t

/-- `t` is `s` with condition `c` raised: the report gives `c` and the unchanged `PC`, the core is stopped, and nothing else has
changed (60 R229). -/
def raisedOnly (s t : State) (c : Cause) : Prop :=
  t.err = some ⟨c, s.pc⟩ ∧ t.run = .stopped ∧ t.pc = s.pc ∧ sameRegs s t ∧ t.fl = s.fl ∧ t.out = s.out ∧ sameMemory s t

/-- The outcome is a next state in which condition `c` has been raised in `s`. -/
def raises (o : Host.Outcome State Fault Refusal) (s : State) (c : Cause) : Prop :=
  ∃ t, o = .next t ∧ raisedOnly s t c

/-- The core is running and the byte at `PC` is `op`. -/
def State.findsOpcode (s : State) (op : Byte) : Prop := s.run = .running ∧ s.pc ≤ 255 ∧ s.mem.peek s.pc = op

/-- The bytes of instruction `i` stand at `PC`, all of them at addresses up to 255. -/
def State.holds (s : State) (i : Instr) : Prop :=
  s.pc + (encode i).length ≤ 256 ∧ ∀ k (h : k < (encode i).length), s.mem.peek (s.pc + k) = (encode i)[k]

/-- With opcode byte `op` at an address from `lo` on, the fetch of the operand bytes raises (40 R114). -/
def fetchRaisesFrom (op : Byte) (lo : Nat) : Prop :=
  ∀ s : State, s.findsOpcode op → lo ≤ s.pc → raises (step s) s .outOfBoundsAddress

end Sys2Proof.Machine
end

