-- ==== Sys2Proof/WellFormed.lean ====
section
/-! DEFINITION. Well-formed instructions: those the assembly syntax of 30_encoding R91 can write. -/

namespace Sys2Proof

/-- A register operand byte names a register: "Valid values are 0 to 7" (30_encoding R83). -/
def registerOperandValid (k : Byte) : Bool := decide (k.toNat ≤ 7)

/-- Every register operand names a register (30_encoding R83, R91); LDI's immediate may be any byte. An instruction that is not
well formed still decodes and executes: its access to the register raises `OutOfBoundsAddress` (40 R115; log 26). -/
def Instr.wellFormed : Instr → Bool
  | .ldi a _ => registerOperandValid a
  | .prn a => registerOperandValid a
  | .hlt => true
  | .mul a b => registerOperandValid a && registerOperandValid b
  | .add a b => registerOperandValid a && registerOperandValid b
  | .cmp a b => registerOperandValid a && registerOperandValid b
  | .and a b => registerOperandValid a && registerOperandValid b
  | .or a b => registerOperandValid a && registerOperandValid b
  | .xor a b => registerOperandValid a && registerOperandValid b
  | .not a => registerOperandValid a
  | .shl a b => registerOperandValid a && registerOperandValid b
  | .shr a b => registerOperandValid a && registerOperandValid b
  | .mod a b => registerOperandValid a && registerOperandValid b
  | .pop a => registerOperandValid a
  | .push a => registerOperandValid a
  | .call a => registerOperandValid a
  | .ret => true
  | .jmp a => registerOperandValid a
  | .jeq a => registerOperandValid a
  | .jne a => registerOperandValid a

end Sys2Proof
end

