-- ==== Sys2Proof/Certificates/Slice0/Obligations.lean ====
section
/-! DEFINITION. The statements for the provers. "Stated" in a docstring means that the statement formalises the numbered rule it
names; "derived" means that it rests on a decision or inference that the spec marks as its own, named with its log entry. Every
clause with `raises` or `raisedOnly` rests on decision D11, that a raising instruction changes nothing else (log 10), and every
`fetchRaisesFrom` on D3, that an operand byte beyond 255 raises (log 6). -/

open Sys2Proof Sys2Proof.Machine

/-! Data movement. -/

/-- Derived (41 R140). LDI writes the immediate into `x[a]` and nothing else, raises for `a > 7`, is the bytes `82 a b`, and its
fetch raises at `PC >= 254`. That a fetch so near the top raises is the spec's decision D3 (log 6), that a raise changes nothing
else its decision D11 (log 10). -/
def Obligations.LdiLoadsImmediate : Prop :=
  (∀ (s : State) (a b : Byte) (i : RegIdx), operandNames a i →
    ∃ t, exec (.ldi a b) s = .next t ∧ wroteReg s t i b.toNat (s.pc + 3)) ∧
  (∀ (s : State) (a b : Byte), 7 < a.toNat → raises (exec (.ldi a b) s) s .outOfBoundsAddress) ∧
  (∀ a b : Byte, encode (.ldi a b) = [0x82#8, a, b]) ∧ fetchRaisesFrom 0x82#8 254

/-- Derived. PRN appends `x[a]` to `OUT` and changes nothing else. That the output is a trace of bytes is the spec's decision
D18 (log 16). -/
def Obligations.PrnAppendsRegisterToOutput : Prop :=
  (∀ (s : State) (a : Byte) (i : RegIdx), operandNames a i →
    ∃ t, exec (.prn a) s = .next t ∧ t.out = s.out ++ [s.reg i] ∧ t.pc = s.pc + 2 ∧ sameRegs s t ∧ t.fl = s.fl ∧
      t.run = s.run ∧ t.err = s.err ∧ sameMemory s t) ∧
  (∀ (s : State) (a : Byte), 7 < a.toNat → raises (exec (.prn a) s) s .outOfBoundsAddress) ∧
  (∀ a : Byte, encode (.prn a) = [0x47#8, a]) ∧ fetchRaisesFrom 0x47#8 255

/-! Stack. -/

/-- Derived. PUSH decrements `SP` modulo 256 and stores `x[a]`, read after the decrement, at the new `SP`. The wrap at 0 is the
spec's decision D10 (log 9), the order that makes `PUSH R7` store the decremented `SP` its decision D17 (log 15). -/
def Obligations.PushStoresRegisterBelowTop : Prop :=
  (∀ (s : State) (a : Byte) (i : RegIdx), operandNames a i →
    ∃ t, exec (.push a) s = .next t ∧ t.sp.toNat = (s.sp.toNat + 255) % 256 ∧
      t.mem.peek t.sp.toNat = (if i = spIdx then t.sp else s.reg i) ∧
      (∀ addr, addr ≠ t.sp.toNat → t.mem.peek addr = s.mem.peek addr) ∧
      sameRegsBut (fun j => j = spIdx) s t ∧ t.pc = s.pc + 2 ∧ t.fl = s.fl ∧ sameStatus s t) ∧
  (∀ (s : State) (a : Byte), 7 < a.toNat → raises (exec (.push a) s) s .outOfBoundsAddress)

/-- Derived. POP puts the byte at `SP` into `x[a]` and then increments `SP` modulo 256; memory keeps the byte. The wrap at 255 is
the spec's decision D10 (log 9), the value `POP R7` leaves its decision D17 (log 15). -/
def Obligations.PopLoadsTopOfStack : Prop :=
  (∀ (s : State) (a : Byte) (i : RegIdx), operandNames a i → i ≠ spIdx →
    ∃ t, exec (.pop a) s = .next t ∧ t.reg i = s.mem.peek s.sp.toNat ∧ t.sp.toNat = (s.sp.toNat + 1) % 256 ∧
      sameRegsBut (fun j => j = i ∨ j = spIdx) s t ∧ t.pc = s.pc + 2 ∧ t.fl = s.fl ∧ sameStatus s t ∧ sameMemory s t) ∧
  (∀ (s : State) (a : Byte), operandNames a spIdx →
    ∃ t, exec (.pop a) s = .next t ∧ wroteReg s t spIdx (((s.mem.peek s.sp.toNat).toNat + 1) % 256) (s.pc + 2)) ∧
  (∀ (s : State) (a : Byte), 7 < a.toNat → raises (exec (.pop a) s) s .outOfBoundsAddress)

/-- Derived (42 R152, the document's stack property). What PUSH stored, a POP reads back, and `SP` is as before, when in between
`SP` returns to the pushed cell and the cell is not overwritten; neither register is `R7`. The wrap of `SP` is D10 (log 9). -/
def Obligations.PopRestoresWhatPushStored : Prop :=
  ∀ (s t u : State) (a b : Byte) (i j : RegIdx), operandNames a i → operandNames b j → i ≠ spIdx → j ≠ spIdx →
    exec (.push a) s = .next t → u.sp = t.sp → u.mem.peek u.sp.toNat = t.mem.peek t.sp.toNat →
    ∃ v, exec (.pop b) u = .next v ∧ v.reg j = s.reg i ∧ v.sp = s.sp

/-! Control flow. -/

/-- Derived (43 R160). HLT stops the core, moves `PC` past itself and changes nothing else, and after it no step changes anything;
it is the byte `01`, executes at every address, and is the only normal end of a run. That `PC` is kept at 256 after a HLT at 255 is
the spec's decision D2 (log 5). -/
def Obligations.HltStopsPastItself : Prop :=
  (∀ s : State, ∃ t, exec .hlt s = .next t ∧ t.run = .stopped ∧ t.pc = s.pc + 1 ∧ sameRegs s t ∧ t.fl = s.fl ∧
    t.err = s.err ∧ t.out = s.out ∧ sameMemory s t ∧ step t = .next t) ∧
  encode .hlt = [0x01#8] ∧ (∀ s : State, s.findsOpcode 0x01#8 → step s = exec .hlt s) ∧
  (∀ s t : State, s.run = .running → s.err = none → step s = .next t → t.run = .stopped → t.err = none →
    s.findsOpcode 0x01#8)

/-- Derived (43 R161). JMP sets `PC` to `x[a]` and nothing else, raises for `a > 7`, is the bytes `54 a`, and its fetch raises at
255. The raising fetch is the spec's decision D3 (log 6), that a raise changes nothing else its decision D11 (log 10). -/
def Obligations.JmpSetsPcFromRegister : Prop :=
  (∀ (s : State) (a : Byte) (i : RegIdx), operandNames a i →
    ∃ t, exec (.jmp a) s = .next t ∧ movedPc s t (s.reg i).toNat) ∧
  (∀ (s : State) (a : Byte), 7 < a.toNat → raises (exec (.jmp a) s) s .outOfBoundsAddress) ∧
  (∀ a : Byte, encode (.jmp a) = [0x54#8, a]) ∧ fetchRaisesFrom 0x54#8 255

/-- Derived (43 R162). JEQ jumps to `x[a]` when `FL.E` is 1; otherwise it goes on at `PC + 2` and its operand is not looked at. That
the untaken jump checks no register is the spec's decision D12 (log 11), the raising fetch at 255 its decision D3 (log 6), that a
raise changes nothing else its decision D11 (log 10). -/
def Obligations.JeqJumpsWhenEqual : Prop :=
  (∀ (s : State) (a : Byte) (i : RegIdx), s.flagE = true → operandNames a i →
    ∃ t, exec (.jeq a) s = .next t ∧ movedPc s t (s.reg i).toNat) ∧
  (∀ (s : State) (a : Byte), s.flagE = false → ∃ t, exec (.jeq a) s = .next t ∧ movedPc s t (s.pc + 2)) ∧
  (∀ (s : State) (a : Byte), s.flagE = true → 7 < a.toNat → raises (exec (.jeq a) s) s .outOfBoundsAddress) ∧
  (∀ a : Byte, encode (.jeq a) = [0x55#8, a]) ∧ fetchRaisesFrom 0x55#8 255

/-- Derived (43 R163). JNE jumps to `x[a]` when `FL.E` is 0; otherwise it goes on at `PC + 2` and its operand is not looked at. The
decisions are those of JEQ: D12 (log 11), D3 (log 6), D11 (log 10). -/
def Obligations.JneJumpsWhenNotEqual : Prop :=
  (∀ (s : State) (a : Byte) (i : RegIdx), s.flagE = false → operandNames a i →
    ∃ t, exec (.jne a) s = .next t ∧ movedPc s t (s.reg i).toNat) ∧
  (∀ (s : State) (a : Byte), s.flagE = true → ∃ t, exec (.jne a) s = .next t ∧ movedPc s t (s.pc + 2)) ∧
  (∀ (s : State) (a : Byte), s.flagE = false → 7 < a.toNat → raises (exec (.jne a) s) s .outOfBoundsAddress) ∧
  (∀ a : Byte, encode (.jne a) = [0x56#8, a]) ∧ fetchRaisesFrom 0x56#8 255

/-- Derived. CALL decrements `SP`, stores `PC + 2` there and jumps to `x[a]`, read after the decrement. That it raises at
`PC = 254` is the spec's decision D4 (log 7), the wrap of `SP` D10 (log 9), the order of the sub-steps D17 (log 15). -/
def Obligations.CallPushesReturnAddress : Prop :=
  (∀ (s : State) (a : Byte) (i : RegIdx), operandNames a i → s.pc + 2 ≤ 255 →
    ∃ t, exec (.call a) s = .next t ∧ t.sp.toNat = (s.sp.toNat + 255) % 256 ∧
      (t.mem.peek t.sp.toNat).toNat = s.pc + 2 ∧ (∀ addr, addr ≠ t.sp.toNat → t.mem.peek addr = s.mem.peek addr) ∧
      t.pc = (if i = spIdx then t.sp else s.reg i).toNat ∧
      sameRegsBut (fun j => j = spIdx) s t ∧ t.fl = s.fl ∧ sameStatus s t) ∧
  (∀ (s : State) (a : Byte), (7 < a.toNat ∨ 254 ≤ s.pc) → raises (exec (.call a) s) s .outOfBoundsAddress)

/-- Derived (43 R165). RET sets `PC` to the byte at `SP` and increments `SP` modulo 256, nothing else; it is the byte `11` and
executes at every address. The wrap of `SP` at 255 is the spec's decision D10 (log 9). -/
def Obligations.RetPopsProgramCounter : Prop :=
  (∀ s : State, ∃ t, exec .ret s = .next t ∧
    wroteReg s t spIdx ((s.sp.toNat + 1) % 256) (s.mem.peek s.sp.toNat).toNat) ∧
  encode .ret = [0x11#8] ∧ (∀ s : State, s.findsOpcode 0x11#8 → step s = exec .ret s)

/-- Derived (43 R166). A RET reached with `SP` at the cell CALL wrote, the cell not overwritten, goes to `call_pc + 2` and
restores `SP`. The wrap of `SP` is the spec's decision D10 (log 9). -/
def Obligations.RetReturnsPastCall : Prop :=
  ∀ (s t u : State) (a : Byte) (i : RegIdx), operandNames a i → s.pc + 2 ≤ 255 →
    exec (.call a) s = .next t → u.sp = t.sp → u.mem.peek u.sp.toNat = t.mem.peek t.sp.toNat →
    ∃ v, exec .ret u = .next v ∧ v.pc = s.pc + 2 ∧ v.sp = s.sp

/-! The ALU. The functions named ADD, MUL, MOD, AND, OR, XOR, SHL, SHR, SUB, DIV are the standard ones by the spec's passage G6
(log 21). -/

/-- Derived (45 R200, R201; G6, log 21). ADD and MUL write the sum and the product modulo 256 into `x[a]` and nothing else. -/
def Obligations.AddAndMulWrapModulo256 : Prop :=
  ∀ (s : State) (a b : Byte) (i j : RegIdx), operandNames a i → operandNames b j →
    (∃ t, exec (.add a b) s = .next t ∧ wroteReg s t i (((s.reg i).toNat + (s.reg j).toNat) % 256) (s.pc + 3)) ∧
    (∃ t, exec (.mul a b) s = .next t ∧ wroteReg s t i (((s.reg i).toNat * (s.reg j).toNat) % 256) (s.pc + 3))

/-- Derived (45 R202; G6, log 21). MOD leaves in `x[a]` the unique remainder below a nonzero divisor, and nothing else changes. -/
def Obligations.ModLeavesRemainder : Prop :=
  ∀ (s : State) (a b : Byte) (i j : RegIdx), operandNames a i → operandNames b j → s.reg j ≠ 0#8 →
    ∃ t r q, exec (.mod a b) s = .next t ∧ wroteReg s t i r (s.pc + 3) ∧ r < (s.reg j).toNat ∧
      (s.reg i).toNat = q * (s.reg j).toNat + r

/-- Derived (44 R180 to R182; G6, log 21). AND, OR and XOR combine the two registers bit by bit into `x[a]`, and nothing else
changes. -/
def Obligations.BitwiseOperationsActBitByBit : Prop :=
  ∀ (s : State) (a b : Byte) (i j : RegIdx), operandNames a i → operandNames b j →
    (∃ t, exec (.and a b) s = .next t ∧ wroteReg s t i (t.reg i).toNat (s.pc + 3) ∧
      ∀ k < 8, (t.reg i).getLsbD k = ((s.reg i).getLsbD k && (s.reg j).getLsbD k)) ∧
    (∃ t, exec (.or a b) s = .next t ∧ wroteReg s t i (t.reg i).toNat (s.pc + 3) ∧
      ∀ k < 8, (t.reg i).getLsbD k = ((s.reg i).getLsbD k || (s.reg j).getLsbD k)) ∧
    (∃ t, exec (.xor a b) s = .next t ∧ wroteReg s t i (t.reg i).toNat (s.pc + 3) ∧
      ∀ k < 8, (t.reg i).getLsbD k = Bool.xor ((s.reg i).getLsbD k) ((s.reg j).getLsbD k))

/-- Derived (44 R183). NOT writes `255 - x[a]`, every bit inverted, and nothing else; it raises for `a > 7`, is the bytes `69 a`, its
fetch raises at 255, and applying it twice restores the value. The raising fetch is the spec's decision D3 (log 6), that a raise
changes nothing else its decision D11 (log 10). -/
def Obligations.NotComplementsRegister : Prop :=
  (∀ (s : State) (a : Byte) (i : RegIdx), operandNames a i →
    ∃ t, exec (.not a) s = .next t ∧ wroteReg s t i (255 - (s.reg i).toNat) (s.pc + 2) ∧
      (∀ k < 8, (t.reg i).getLsbD k = !(s.reg i).getLsbD k) ∧
      ∃ u, exec (.not a) t = .next u ∧ u.reg i = s.reg i) ∧
  (∀ (s : State) (a : Byte), 7 < a.toNat → raises (exec (.not a) s) s .outOfBoundsAddress) ∧
  (∀ a : Byte, encode (.not a) = [0x69#8, a]) ∧ fetchRaisesFrom 0x69#8 255

/-- Derived (44 R184, R185; the whole count and the zeros shifted in are the spec's decision D16, log 14). SHL multiplies by
`2^x[b]` modulo 256, SHR divides by it, and counts of 8 or more give 0. -/
def Obligations.ShiftsUseTheWholeCount : Prop :=
  ∀ (s : State) (a b : Byte) (i j : RegIdx), operandNames a i → operandNames b j →
    (∃ t, exec (.shl a b) s = .next t ∧
      wroteReg s t i (((s.reg i).toNat * 2 ^ (s.reg j).toNat) % 256) (s.pc + 3) ∧ (8 ≤ (s.reg j).toNat → t.reg i = 0#8)) ∧
    (∃ t, exec (.shr a b) s = .next t ∧
      wroteReg s t i ((s.reg i).toNat / 2 ^ (s.reg j).toNat) (s.pc + 3) ∧ (8 ≤ (s.reg j).toNat → t.reg i = 0#8))

/-- Derived (45 R203). CMP sets `EQUAL`, `GREATER_THAN`, `LESS_THAN` by the unsigned order of the two registers and changes nothing
else; it raises for an operand above 7, is the bytes `A7 a b`, and its fetch raises at `PC >= 254`. The raising fetch is the spec's
decision D3 (log 6), that a raise changes nothing else its decision D11 (log 10); the bit positions are the next statement's. -/
def Obligations.CmpSetsFlagsByUnsignedOrder : Prop :=
  (∀ (s : State) (a b : Byte) (i j : RegIdx), operandNames a i → operandNames b j →
    ∃ t, exec (.cmp a b) s = .next t ∧ t.flagE = decide ((s.reg i).toNat = (s.reg j).toNat) ∧
      t.flagG = decide ((s.reg j).toNat < (s.reg i).toNat) ∧ t.flagL = decide ((s.reg i).toNat < (s.reg j).toNat) ∧
      t.pc = s.pc + 3 ∧ sameRegs s t ∧ sameStatus s t ∧ sameMemory s t) ∧
  (∀ (s : State) (a b : Byte), (7 < a.toNat ∨ 7 < b.toNat) → raises (exec (.cmp a b) s) s .outOfBoundsAddress) ∧
  (∀ a b : Byte, encode (.cmp a b) = [0xA7#8, a, b]) ∧ fetchRaisesFrom 0xA7#8 254

/-- Derived. The value of `FL` after a CMP, with the bit positions of the spec's decision D9 (log 8). -/
def Obligations.CmpFlagValuesAtDecidedPositions : Prop :=
  ∀ (s t : State) (a b : Byte) (i j : RegIdx), operandNames a i → operandNames b j → exec (.cmp a b) s = .next t →
    t.fl = if s.reg i = s.reg j then 0b001#3 else if (s.reg j).toNat < (s.reg i).toNat then 0b010#3 else 0b100#3

/-- Derived (45 R204, R205; that they are ALU functions no opcode reaches is the spec's decision D14, the floor its D15, log 13).
The ALU's SUB and DIV write the difference modulo 256 and the quotient; DIV by zero raises; an index above 7 raises
`OutOfBoundsAddress` in both, before the divisor is looked at (D12, log 11); `A1` and `A3` are no opcodes. -/
def Obligations.AluSubAndDivWithoutOpcode : Prop :=
  (∀ (s : State) (a b : Byte) (i j : RegIdx), operandNames a i → operandNames b j →
    (∃ t, alu (some .sub) a b s = .ok t ∧
      wroteReg s t i (((s.reg i).toNat + 256 - (s.reg j).toNat) % 256) s.pc) ∧
    (s.reg j ≠ 0#8 → ∃ t, alu (some .div) a b s = .ok t ∧ wroteReg s t i ((s.reg i).toNat / (s.reg j).toNat) s.pc) ∧
    (s.reg j = 0#8 → alu (some .div) a b s = .error .divisionByZero)) ∧
  (∀ (s : State) (a b : Byte), (7 < a.toNat ∨ 7 < b.toNat) →
    alu (some .sub) a b s = .error .outOfBoundsAddress ∧ alu (some .div) a b s = .error .outOfBoundsAddress) ∧
  (∀ rest, decode (0xA1#8 :: rest) = .error (.unknownOpcode 0xA1#8)) ∧
  (∀ rest, decode (0xA3#8 :: rest) = .error (.unknownOpcode 0xA3#8))

/-! Registers and memory. -/

/-- Derived (10_state section 1, R22). A register write stores its value modulo 256 in that register and changes nothing else. -/
def Obligations.RegisterWriteIsMasked : Prop :=
  ∀ (s : State) (i : RegIdx) (v : Int),
    (((s.writeReg i v).reg i).toNat : Int) = v % 256 ∧ sameRegsBut (fun j => j = i) s (s.writeReg i v) ∧
    (s.writeReg i v).pc = s.pc ∧ (s.writeReg i v).fl = s.fl ∧ sameStatus s (s.writeReg i v) ∧ sameMemory s (s.writeReg i v)

/-- Stated, R51 and R52. A read at 0 to 255 gives the cell, a write there sets that cell and no other, and any other address
raises `OutOfBoundsAddress`. -/
def Obligations.MemoryAccessesStayInRange : Prop :=
  (∀ (s : State) (addr : Nat), addr ≤ 255 → s.memRead addr = .ok (s.mem.peek addr)) ∧
  (∀ (s : State) (addr : Nat), 255 < addr → s.memRead addr = .error .outOfBoundsAddress) ∧
  (∀ (s : State) (addr : Nat) (v : Byte), addr ≤ 255 → ∃ t, s.memWrite addr v = .ok t ∧ t.mem.peek addr = v ∧
    (∀ other, other ≠ addr → t.mem.peek other = s.mem.peek other) ∧
    t.regs = s.regs ∧ t.pc = s.pc ∧ t.fl = s.fl ∧ sameStatus s t) ∧
  (∀ (s : State) (addr : Nat) (v : Byte), 255 < addr → s.memWrite addr v = .error .outOfBoundsAddress)

/-- Derived (20_memory R63, [derived] there). Whatever byte PUSH writes over the next instruction is the opcode the very next step
finds: `01` halts, a byte outside the dispatch table raises `UnknownOpcode`. So is the return address of a CALL whose target is the
cell it writes. `R7` as operand stands for the decremented `SP` (the spec's decision D17, log 15). -/
def Obligations.PushedByteIsFetchedNext : Prop :=
  (∀ (s : State) (a v : Byte) (i : RegIdx), s.run = .running → s.holds (.push a) → operandNames a i →
    s.decSp.sp.toNat = s.pc + 2 → v = (if i = spIdx then s.decSp.sp else s.reg i) →
    ∃ t, step s = .next t ∧ t.findsOpcode v ∧
      (v = 0x01#8 → ∃ u, step t = .next u ∧ u.run = .stopped ∧ u.err = s.err ∧ u.pc = s.pc + 3) ∧
      (dispatch v = none → raises (step t) t .unknownOpcode)) ∧
  (∀ (s : State) (a : Byte) (i : RegIdx), s.run = .running → s.holds (.call a) → operandNames a i → s.pc + 2 ≤ 255 →
    (i = spIdx ∨ s.reg i = s.decSp.sp) →
    ∃ t, step s = .next t ∧ t.pc = s.decSp.sp.toNat ∧ t.findsOpcode (BitVec.ofNat 8 (s.pc + 2)))

/-! Frames. -/

/-- Derived (10_state R24, [derived] there). An instruction writes no register but its destination and, for PUSH, POP, CALL and
RET, `x[7]`. -/
def Obligations.OnlyDestinationRegistersChange : Prop :=
  ∀ (i : Instr) (s t : State), exec i s = .next t → sameRegsBut (writesRegister i) s t

/-- Derived (20_memory sections 1 and 3, R54). PUSH and CALL store one byte, at the decremented `SP`; no other instruction
changes any byte of memory. -/
def Obligations.OnlyPushAndCallStore : Prop :=
  (∀ (i : Instr) (s t : State), exec i s = .next t → (∀ a, i ≠ .push a) → (∀ a, i ≠ .call a) → sameMemory s t) ∧
  (∀ (a : Byte) (s t : State) (addr : Nat), exec (.push a) s = .next t → addr ≠ s.decSp.sp.toNat →
    t.mem.peek addr = s.mem.peek addr) ∧
  (∀ (a : Byte) (s t : State) (addr : Nat), exec (.call a) s = .next t → addr ≠ s.decSp.sp.toNat →
    t.mem.peek addr = s.mem.peek addr)

/-- Stated, R30. CMP alone writes `FL`, all three bits with exactly one set; JEQ and JNE alone read it, and only `FL.E`; a fatal
condition leaves it unchanged. -/
def Obligations.OnlyCmpWritesAndOnlyJeqJneReadFlags : Prop :=
  (∀ (i : Instr) (s t : State), exec i s = .next t → (∀ a b, i ≠ .cmp a b) → t.fl = s.fl) ∧
  (∀ (a b : Byte) (i j : RegIdx) (s : State) (f : BitVec 3), operandNames a i → operandNames b j →
    ∃ t, exec (.cmp a b) s = .next t ∧ exec (.cmp a b) (s.setFl f) = .next t ∧
      [t.flagE, t.flagG, t.flagL].count true = 1) ∧
  (∀ (i : Instr) (s : State) (f : BitVec 3), (∀ a b, i ≠ .cmp a b) →
    ((∃ a, i = .jeq a ∨ i = .jne a) → (s.setFl f).flagE = s.flagE) →
    ∃ t, exec i s = .next t ∧ exec i (s.setFl f) = .next (t.setFl f)) ∧
  (∀ s t : State, step s = .next t → t.err ≠ s.err → t.fl = s.fl)

/-- Derived. Only PRN changes `OUT`; only HLT and a fatal condition change `RUN` or `ERR`. That `OUT` and `ERR` are held as a
trace and a report is the spec's decision D18 and D19 (log 16, 17). -/
def Obligations.OutputAndRunStateFrame : Prop :=
  (∀ (i : Instr) (s t : State), exec i s = .next t → (∀ a, i ≠ .prn a) → t.out = s.out) ∧
  (∀ (i : Instr) (s t : State), exec i s = .next t → i ≠ .hlt →
    (t.run = s.run ∧ t.err = s.err) ∨ ∃ c, raisedOnly s t c)

/-- Derived (10_state R34, D18, log 16). No instruction reads `OUT`: what was printed before changes nothing but `OUT`. -/
def Obligations.NoInstructionReadsOutput : Prop :=
  ∀ (i : Instr) (s : State) (before : List Byte),
    ∃ t, exec i s = .next t ∧ exec i { s with out := before ++ s.out } = .next { t with out := before ++ t.out }

/-- Derived (40 R117 with R116 and R27, whose range to 256 is the spec's decision D2, log 5). An instruction whose opcode bit 4 is
clear leaves `PC` one past its last byte unless it raises; one whose bit 4 is set and which is not an untaken JEQ or JNE leaves
`PC` at an address 0 to 255 unless it raises. -/
def Obligations.ProgramCounterAfterInstruction : Prop :=
  (∀ (i : Instr) (s t : State), exec i s = .next t → i.opcode.byte.getLsbD 4 = false →
    t.pc = s.pc + (encode i).length ∨ ∃ c, raisedOnly s t c) ∧
  (∀ (i : Instr) (s t : State), exec i s = .next t → i.opcode.byte.getLsbD 4 = true →
    t.pc ≤ 255 ∨ ((∃ a, i = .jeq a ∨ i = .jne a) ∧ accessedOperands i s = [] ∧ t.pc = s.pc + 2) ∨ ∃ c, raisedOnly s t c)

/-! Fatal conditions. -/

/-- Derived (60 R229). A step that raises changes nothing but `ERR` and `RUN`: the report holds the condition and the address of the
raising instruction (or 256), and the core is stopped. That the raising instruction changes nothing is the spec's decision D11
(log 10), the form of the report D19 (log 17), the value 256 D2 (log 5). -/
def Obligations.RaisingStepChangesOnlyErrAndRun : Prop :=
  ∀ s t : State, s.run = .running → s.err = none → s.pc ≤ 256 → step s = .next t → t.err ≠ none →
    ∃ c, raisedOnly s t c ∧ (s.pc ≤ 255 ∨ (s.pc = 256 ∧ c = .outOfBoundsAddress))

/-- Derived (60 R231, D19, log 17; 40 R126, D20, log 18). After a fatal condition no step, no `start` and no `load` changes the
state; reset leaves it. That a `load` writes nothing then is the spec's decision D26 (log 18). -/
def Obligations.OnlyResetLeavesAFailedState : Prop :=
  ∀ (s : State) (c : Cause) (image : List Byte),
    step (s.raise c) = .next (s.raise c) ∧ hostAct .start (s.raise c) = some (s.raise c) ∧
    hostAct (.load image) (s.raise c) = some (s.raise c) ∧ hostAct .reset (s.raise c) = some State.reset

/-- Derived (60 R221). The ALU raises `UnsupportedOperation` for a tag that is not one of its twelve, which stops the core and is
recorded with `PC`; no step of the core raises it. That the unknown tag is refused whatever the register indices, before they are
checked, is the model's own choice (log 23): the spec gives no order of the two checks. -/
def Obligations.UnsupportedOperationOnlyFromUnknownTag : Prop :=
  (∀ (o : Opcode) (a b : Byte) (s : State), ∃ t, finish o s (alu none a b s) = .next t ∧
    t.err = some ⟨.unsupportedOperation, s.pc⟩ ∧ t.run = .stopped) ∧
  (∀ (tag : AluTag) (a b : Byte) (s : State), alu (some tag) a b s ≠ .error .unsupportedOperation) ∧
  (∀ (s t : State) (p : Nat), step s = .next t → t.err = some ⟨.unsupportedOperation, p⟩ → t.err = s.err)

/-- Stated, R222. `DivisionByZero` is raised by MOD with `x[b] = 0` and by no other instruction, and by the ALU's DIV. It is
reported with the MOD's `PC`, the dividend keeps its value, and no further instruction executes. -/
def Obligations.DivisionByZeroExactlyFromZeroDivisor : Prop :=
  (∀ (i : Instr) (s t : State) (p : Nat), s.err = none → exec i s = .next t → t.err = some ⟨.divisionByZero, p⟩ →
    ∃ a b ib, i = .mod a b ∧ operandNames b ib ∧ s.reg ib = 0#8) ∧
  (∀ (s : State) (a b : Byte) (ia ib : RegIdx), operandNames a ia → operandNames b ib → s.reg ib = 0#8 →
    alu (some .div) a b s = .error .divisionByZero ∧
    ∃ t, exec (.mod a b) s = .next t ∧ t.err = some ⟨.divisionByZero, s.pc⟩ ∧ t.run = .stopped ∧ t.reg ia = s.reg ia ∧
      step t = .next t)

/-- Stated, R87 and R223. The 236 bytes outside the dispatch table are unknown opcodes, `00` among them; a step that fetches one
raises `UnknownOpcode`, records it with its `PC` and stops, and the byte can be read at the recorded `PC`. -/
def Obligations.UnknownOpcodesRaise : Prop :=
  let table : List Byte := [0x01, 0x11, 0x45, 0x46, 0x47, 0x50, 0x54, 0x55, 0x56, 0x69, 0x82, 0xA0, 0xA2, 0xA4, 0xA7, 0xA8,
    0xAA, 0xAB, 0xAC, 0xAD]
  (∀ (s : State) (op : Byte), s.findsOpcode op → op ∉ table → ∃ t, step s = .next t ∧
    t.err = some ⟨.unknownOpcode, s.pc⟩ ∧ t.run = .stopped ∧ t.mem.peek s.pc = op) ∧
  (∀ (s t : State) (p : Nat), s.run = .running → s.err = none → step s = .next t → t.err = some ⟨.unknownOpcode, p⟩ →
    p = s.pc ∧ s.mem.peek s.pc ∉ table) ∧
  (∀ op : Byte, op ∈ table ↔ (dispatch op).isSome = true) ∧
  ((List.range 256).filter fun n => (dispatch (BitVec.ofNat 8 n)).isNone).length = 236 ∧ dispatch 0x00#8 = none

/-- Derived (60 R224). With no report yet, a step raises `OutOfBoundsAddress` exactly at the sites of that rule's table: opcode fetch
at 256 (the spec's decision D2, log 5), an operand byte beyond 255 (D3, log 6), an accessed register operand above 7 (D12, log 11),
CALL at 254 (D4, log 7); the report holds the condition and `PC`, and nothing else changes (D11, log 10). -/
def Obligations.OutOfBoundsAddressExactlyAtItsSites : Prop :=
  ∀ s t : State, s.run = .running → s.err = none → s.pc ≤ 256 → step s = .next t →
    ((∃ p, t.err = some ⟨.outOfBoundsAddress, p⟩) ↔
      s.pc = 256 ∨
      (s.pc ≤ 255 ∧ ∃ o, dispatch (s.mem.peek s.pc) = some o ∧ 255 < s.pc + o.operandCount) ∨
      (∃ i, s.holds i ∧ ∃ k ∈ accessedOperands i s, 7 < k.toNat) ∨
      (∃ a, s.holds (.call a) ∧ s.pc = 254)) ∧
    (∀ p, t.err = some ⟨.outOfBoundsAddress, p⟩ → raisedOnly s t .outOfBoundsAddress)

/-- Derived (40 R115, D12, log 11). Every instruction raises `OutOfBoundsAddress`, whatever else is wrong, for a register operand
above 7 that it accesses. -/
def Obligations.AccessedOperandAboveSevenRaises : Prop :=
  ∀ (i : Instr) (s : State) (k : Byte), k ∈ accessedOperands i s → 7 < k.toNat →
    raises (exec i s) s .outOfBoundsAddress

/-- Derived (30_encoding R91 with 60 R224 and R222; log 26). A well-formed instruction raises only as CALL from 254 on or as MOD
by zero; otherwise `ERR` is as before. -/
def Obligations.WellFormedInstructionsRaiseOnlyInCallAndMod : Prop :=
  ∀ (i : Instr) (s t : State), i.wellFormed = true → exec i s = .next t →
    t.err = s.err ∨ (∃ a, i = .call a ∧ 254 ≤ s.pc ∧ raisedOnly s t .outOfBoundsAddress) ∨
    (∃ a b ib, i = .mod a b ∧ operandNames b ib ∧ s.reg ib = 0#8 ∧ raisedOnly s t .divisionByZero)

/-- Derived (60 R226; the numbers are the spec's decision D13, log 12). -/
def Obligations.CauseCodesOnTheStatusPort : Prop :=
  (∀ s : State, s.err = none → s.errCode = 0) ∧ ∀ s : State,
    (s.raise .unsupportedOperation).errCode = 1 ∧ (s.raise .divisionByZero).errCode = 2 ∧
    (s.raise .unknownOpcode).errCode = 3 ∧ (s.raise .outOfBoundsAddress).errCode = 4

/-! The loop. -/

/-- Stated, R110. A stopped core performs no step and changes no state; a running core always takes a step, and the step stops it
exactly when it ran a HLT or an error condition occurred. -/
def Obligations.LoopStopsOnlyByHltOrCondition : Prop :=
  (∀ s : State, s.run = .stopped → step s = .next s) ∧
  (∀ s : State, s.run = .running → s.err = none → ∃ t, step s = .next t ∧
    (t.run = .stopped ↔ s.findsOpcode 0x01#8 ∨ t.err ≠ none))

/-- Derived (40 R111). When the core runs and the bytes at `PC` are those of an instruction, or decode to it, the step is that
instruction's execution and nothing more. -/
def Obligations.StepExecutesTheInstructionAtPc : Prop :=
  (∀ (s : State) (i : Instr), s.run = .running → s.holds i → step s = exec i s) ∧
  (∀ (s : State) (i : Instr) (rest : List Byte), s.run = .running → decode (s.mem.codeBytes s.pc 3) = .ok (i, rest) →
    step s = exec i s)

/-- Derived. Fetching at 256 raises (the spec's decision D2, log 5); an operand byte beyond 255 raises (D3, log 6); an unknown
opcode is reported before any operand byte is missed (D23, log 11). -/
def Obligations.FetchFaultsNearTheTop : Prop :=
  (∀ s : State, s.run = .running → 255 < s.pc → raises (step s) s .outOfBoundsAddress) ∧
  (∀ (s : State) (op : Byte) (o : Opcode), s.findsOpcode op → dispatch op = some o → 255 < s.pc + o.operandCount →
    raises (step s) s .outOfBoundsAddress) ∧
  (∀ (s : State) (op : Byte), s.findsOpcode op → dispatch op = none → raises (step s) s .unknownOpcode)

/-- Derived (00_scope R11: "The step relation is a deterministic function of the state"). Every instruction has an effect in
every state: no meaning stops the model. -/
def Obligations.EveryInstructionHasAnEffectInEveryState : Prop :=
  ∀ (i : Instr) (s : State), ∃ t, exec i s = .next t

/-! Invariants. -/

/-- Derived (10_state R39, [derived] there). Every step from a state that meets the invariants of R39 gives one that meets them. -/
def Obligations.StepKeepsInvariant : Prop :=
  ∀ s t : State, Inv s → step s = .next t → Inv t

/-- Derived (10_state R38, R39). The state after reset meets the invariants. -/
def Obligations.ResetMeetsInvariant : Prop := Inv State.reset

/-- Derived (70 R260, R262, 40 R126; D8, D20, log 18, 25). The host's actions keep the invariants. -/
def Obligations.HostActionsKeepInvariant : Prop :=
  ∀ (s : State) (action : HostAction), Inv s → Inv (actionEffect action s) ∧ ∀ t, hostAct action s = some t → Inv t

/-! Encoding. -/

/-- Derived (30_encoding R80 to R85; the last clause 70 R262, 40 R111). Decoding the bytes of any instruction, with every operand
at every value, gives it back and leaves the bytes after it; written to memory at `PC`, wherever they fit, they are fetched as it. -/
def Obligations.DecodeOfEncodeIsTheInstruction : Prop :=
  (∀ (i : Instr) (rest : List Byte), decode (encode i ++ rest) = .ok (i, rest)) ∧
  (∀ (i : Instr) (s : State), s.pc + (encode i).length ≤ 256 →
    fetch { s with mem := s.mem.loadFrom s.pc (encode i) } = .ok i)

/-- Derived (30_encoding R80 to R87). A byte sequence that decodes is the instruction's encoding followed by the rest; one that
does not starts with an unknown opcode or is too short. -/
def Obligations.DecodeReadsOnlyEncodings : Prop :=
  (∀ (bytes rest : List Byte) (i : Instr), decode bytes = .ok (i, rest) → bytes = encode i ++ rest) ∧
  (∀ (op : Byte) (rest : List Byte) (e : DecodeError), decode (op :: rest) = .error e →
    (dispatch op = none ∧ e = .unknownOpcode op) ∨
    ∃ o, dispatch op = some o ∧ rest.length < o.operandCount ∧ e = .missingOperand o)

/-- Derived (30_encoding R85). The word of every row of the table, written out from it in the table's order, decodes to the row's
instruction, with every operand byte at every value. -/
def Obligations.TableWordsDecode : Prop :=
  ∀ a b : Byte,
    decode [0b10000010#8, a, b] = .ok (.ldi a b, []) ∧
    decode [0b01000111#8, a] = .ok (.prn a, []) ∧
    decode [0b00000001#8] = .ok (.hlt, []) ∧
    decode [0b10100010#8, a, b] = .ok (.mul a b, []) ∧
    decode [0b10100000#8, a, b] = .ok (.add a b, []) ∧
    decode [0b10100111#8, a, b] = .ok (.cmp a b, []) ∧
    decode [0b10101000#8, a, b] = .ok (.and a b, []) ∧
    decode [0b10101010#8, a, b] = .ok (.or a b, []) ∧
    decode [0b10101011#8, a, b] = .ok (.xor a b, []) ∧
    decode [0b01101001#8, a] = .ok (.not a, []) ∧
    decode [0b10101100#8, a, b] = .ok (.shl a b, []) ∧
    decode [0b10101101#8, a, b] = .ok (.shr a b, []) ∧
    decode [0b10100100#8, a, b] = .ok (.mod a b, []) ∧
    decode [0b01000110#8, a] = .ok (.pop a, []) ∧
    decode [0b01000101#8, a] = .ok (.push a, []) ∧
    decode [0b01010000#8, a] = .ok (.call a, []) ∧
    decode [0b00010001#8] = .ok (.ret, []) ∧
    decode [0b01010100#8, a] = .ok (.jmp a, []) ∧
    decode [0b01010101#8, a] = .ok (.jeq a, []) ∧
    decode [0b01010110#8, a] = .ok (.jne a, [])

/-- Derived (30_encoding R86, [derived] there). The bit fields of every opcode agree with its row: operand count, ALU operation,
and which instructions place `PC` themselves. -/
def Obligations.OpcodeFieldsAgreeWithTheTable : Prop :=
  ∀ i : Instr,
    (encode i).length = 1 + i.opcode.operandCount ∧ i.opcode.operandCount ≤ 2 ∧
    (i.opcode.isAlu = true ↔ i.opcode ∈ [.mul, .add, .cmp, .and, .or, .xor, .not, .shl, .shr, .mod]) ∧
    (i.opcode.setsPc = true ↔ i.opcode ∈ [.call, .ret, .jmp, .jeq, .jne])

/-! Reset and boot. -/

/-- Derived. The state after reset: `x[7] = 244` and `RUN = Stopped` are the document's; the other values are the spec's decisions
D5 to D8, D18, D19 (log 1 to 4, 16, 17). The action `reset` gives it from any state. -/
def Obligations.ResetValues : Prop :=
  State.reset.sp = 244#8 ∧ State.reset.run = .stopped ∧ (∀ i : RegIdx, i ≠ spIdx → State.reset.reg i = 0#8) ∧
  State.reset.pc = 0 ∧ State.reset.fl = 0b000#3 ∧ State.reset.err = none ∧ State.reset.out = [] ∧
  (∀ addr, State.reset.mem.peek addr = 0#8) ∧ ∀ s : State, actionEffect .reset s = State.reset

/-- Derived (40 R126; the spec's decision D20, log 18). `start` sets `RUN` to Running when the core is stopped without a report,
changes nothing else, and is ignored otherwise. -/
def Obligations.StartRunsAStoppedCore : Prop :=
  (∀ s : State, s.run = .stopped → s.err = none → s.start.run = .running ∧ s.start.regs = s.regs ∧ s.start.pc = s.pc ∧
    s.start.fl = s.fl ∧ s.start.err = s.err ∧ s.start.out = s.out ∧ s.start.mem = s.mem) ∧
  (∀ s : State, (s.run = .running ∨ s.err ≠ none) → s.start = s)

/-- Derived (00_scope R11, the spec's decision D26, log 18). The host has no move while the core runs, a stopped core takes every
action, and memory is written by no action but reset except between reset and `start`. A reset opens that window, a `load` leaves it
open, a `start` closes it, and no step of a running core opens it again. -/
def Obligations.HostMovesOnlyWhileStopped : Prop :=
  (∀ (s : State) (action : HostAction), s.run = .running → hostAct action s = none) ∧
  (∀ (s : State) (action : HostAction), s.run = .stopped → hostAct action s = some (actionEffect action s)) ∧
  (∀ (s t : State) (action : HostAction), hostAct action s = some t → action ≠ .reset → ¬ s.awaitsImage → t.mem = s.mem) ∧
  (∀ s t : State, hostAct .reset s = some t → t.awaitsImage) ∧
  (∀ (s t : State) (image : List Byte), s.awaitsImage → hostAct (.load image) s = some t → t.awaitsImage) ∧
  (∀ s t : State, hostAct .start s = some t → ¬ t.awaitsImage) ∧
  (∀ s t : State, s.run = .running → step s = .next t → ¬ t.awaitsImage)

/-- Derived (70 R262, 20_memory R54; the spec's decisions D8, log 25, and D26, log 18). Between reset and `start`, `load` puts byte
`k` of the image at address `k` and changes nothing else; at another time, and with an image longer than 256 bytes, it leaves the
state unchanged. -/
def Obligations.LoadWritesTheImageFromZero : Prop :=
  (∀ (s : State) (image : List Byte), s.awaitsImage → image.length ≤ 256 →
    (∀ k (h : k < image.length), (s.load image).mem.peek k = image[k]) ∧
    (∀ addr, image.length ≤ addr → (s.load image).mem.peek addr = s.mem.peek addr) ∧
    (s.load image).regs = s.regs ∧ (s.load image).pc = s.pc ∧ (s.load image).fl = s.fl ∧
    (s.load image).run = s.run ∧ (s.load image).err = s.err ∧ (s.load image).out = s.out) ∧
  (∀ (s : State) (image : List Byte), (¬ s.awaitsImage ∨ 256 < image.length) → s.load image = s)
end

