-- ==== Sys2Proof/Laws/Boot.lean ====
section
/-! SUPPORT. The laws of the host's actions: what each answers, case by case. -/

namespace Sys2Proof.Machine

theorem hostAct_running {s : State} (h : s.run = .running) (action : HostAction) : hostAct action s = none := by
  rw [hostAct, h]

theorem hostAct_stopped {s : State} (h : s.run = .stopped) (action : HostAction) :
    hostAct action s = some (actionEffect action s) := by
  rw [hostAct, h]

/-- A move of the host happens in a stopped core and has its action's effect. -/
theorem hostAct_eq_some {action : HostAction} {s t : State} (h : hostAct action s = some t) :
    s.run = .stopped ∧ t = actionEffect action s := by
  cases hr : s.run with
  | running => rw [hostAct_running hr] at h; cases h
  | stopped => rw [hostAct_stopped hr] at h; cases h; exact ⟨rfl, rfl⟩

theorem awaitsImage_iff {s : State} : s.awaitsImage ↔
    s.regs = State.reset.regs ∧ s.pc = 0 ∧ s.fl = Config.resetFl ∧ s.run = .stopped ∧ s.err = none ∧ s.out = [] := by
  cases s
  simp only [State.awaitsImage, State.mk.injEq, State.reset, Config.resetPc, and_true]

theorem load_of_awaitsImage {s : State} {image : List Byte} (h : s.awaitsImage) (hl : image.length ≤ 256) :
    s.load image = { s with mem := s.mem.loadFrom 0 image } := if_pos ⟨h, hl⟩

theorem load_of_not {s : State} {image : List Byte} (h : ¬ s.awaitsImage ∨ 256 < image.length) : s.load image = s :=
  if_neg fun ⟨ha, hl⟩ => h.elim (fun hn => hn ha) (fun hl' => absurd hl (Nat.not_le_of_lt hl'))

theorem start_of_stopped {s : State} (h : s.run = .stopped) (he : s.err = none) : s.start = { s with run := .running } :=
  if_pos ⟨h, he⟩

theorem start_of_not {s : State} (h : s.run = .running ∨ s.err ≠ none) : s.start = s := by
  refine if_neg fun ⟨hr, he⟩ => ?_
  rcases h with h | h
  · rw [hr] at h; cases h
  · exact h he

end Sys2Proof.Machine
end

