-- ==== Sys2Proof/Laws/Decode.lean ====
section
/-! SUPPORT. The dispatch table and the decoder: what a lookup and a decoding can answer. -/

namespace Sys2Proof

/-- Every row is found by its own byte: no two rows share one (30_encoding R85). -/
@[simp] theorem dispatch_byte (o : Opcode) : dispatch o.byte = some o := by cases o <;> decide

/-- A lookup that finds a row finds the row of that byte. -/
theorem byte_of_dispatch {op : Byte} {o : Opcode} (h : dispatch op = some o) : o.byte = op := by
  have := List.find?_some h
  simpa using this

theorem dispatch_eq_some_iff {op : Byte} {o : Opcode} : dispatch op = some o ↔ op = o.byte :=
  ⟨fun h => (byte_of_dispatch h).symm, fun h => h ▸ dispatch_byte o⟩

/-- The operand count of every table row is 0, 1 or 2 (30_encoding R88, R90). -/
theorem operandCount_le_two (o : Opcode) : o.operandCount ≤ 2 := by cases o <;> decide

/-- An instruction has as many operand bytes as its opcode counts (30_encoding R86). -/
theorem operands_length (i : Instr) : i.operands.length = i.opcode.operandCount := by
  cases i <;> simp [Instr.operands, Instr.opcode, Opcode.operandCount, Opcode.byte]

theorem encode_length (i : Instr) : (encode i).length = 1 + i.opcode.operandCount := by
  simp [encode, operands_length, Nat.add_comm]

theorem decode_nil : decode [] = .error .noOpcode := rfl

theorem decode_unknown {op : Byte} (rest : List Byte) (h : dispatch op = none) :
    decode (op :: rest) = .error (.unknownOpcode op) := by simp [decode, h]

theorem decode_known {op : Byte} {o : Opcode} (rest : List Byte) (h : dispatch op = some o) :
    decode (op :: rest) = decodeOperands o rest := by simp [decode, h]

/-- Operand decoding fails exactly for want of bytes. -/
theorem decodeOperands_error_iff (o : Opcode) (rest : List Byte) (e : DecodeError) :
    decodeOperands o rest = .error e ↔ rest.length < o.operandCount ∧ e = .missingOperand o := by
  rcases rest with _ | ⟨a, _ | ⟨b, rest⟩⟩ <;> cases o <;>
    simp [decodeOperands, Opcode.form, Opcode.operandCount, Opcode.byte, eq_comm]

/-- Operand decoding that succeeds takes the instruction's own operand bytes and leaves the rest. -/
theorem decodeOperands_ok {o : Opcode} {bytes rest : List Byte} {i : Instr}
    (h : decodeOperands o bytes = .ok (i, rest)) : i.opcode = o ∧ bytes = i.operands ++ rest := by
  rcases bytes with _ | ⟨a, _ | ⟨b, bytes⟩⟩ <;> cases o <;>
    simp only [decodeOperands, Opcode.form, Except.ok.injEq, Prod.mk.injEq, reduceCtorEq] at h <;>
    obtain ⟨rfl, rfl⟩ := h <;> simp [Instr.opcode, Instr.operands]

end Sys2Proof
end

