-- ==== Sys2Proof/Laws/Memory.lean ====
section
/-! SUPPORT. Memory: a read after a write, and that every operation keeps the canonical form. The read laws hold of every list
of cells, sorted or not. -/

namespace Sys2Proof.Machine.Memory

theorem peek_insertCell (m : Memory) (a b : Nat) (v : Byte) (h : ∀ c ∈ m, c.1 ≠ a) :
    peek (insertCell a v m) b = if a = b then v else peek m b := by
  induction m with
  | nil => simp [insertCell, peek]
  | cons c rest ih =>
    obtain ⟨k, w⟩ := c
    have hk : k ≠ a := h (k, w) (by simp)
    have ih := ih fun c hc => h c (by simp [hc])
    unfold insertCell
    split
    · simp [peek]
    · simp only [peek, ih]
      by_cases hkb : k = b
      · have : a ≠ b := fun e => hk (hkb.trans e.symm)
        simp [hkb, this]
      · simp [hkb]

theorem peek_filter_ne (m : Memory) (a b : Nat) :
    peek (m.filter fun c => c.1 != a) b = if a = b then Config.resetMem else peek m b := by
  induction m with
  | nil => simp [peek]
  | cons c rest ih =>
    obtain ⟨k, w⟩ := c
    by_cases hk : k = a
    · subst hk
      simp only [List.filter, bne_self_eq_false, ih, peek]
      by_cases h : k = b <;> simp [h]
    · have : (k != a) = true := by simpa using hk
      simp only [List.filter, this, peek, ih]
      by_cases hkb : k = b
      · have : a ≠ b := fun e => hk (hkb.trans e.symm)
        simp [hkb, this]
      · simp [hkb]

/-- What a cell holds after a write (20_memory R52). -/
theorem peek_poke (m : Memory) (a b : Nat) (v : Byte) : peek (m.poke a v) b = if a = b then v else peek m b := by
  unfold poke
  by_cases hv : v = Config.resetMem
  · simp only [hv, if_true, peek_filter_ne]
  · simp only [hv, if_false]
    rw [peek_insertCell _ _ _ _ (by simp), peek_filter_ne]
    by_cases h : a = b <;> simp [h]

@[simp] theorem peek_poke_same (m : Memory) (a : Nat) (v : Byte) : peek (m.poke a v) a = v := by simp [peek_poke]

theorem peek_poke_ne (m : Memory) {a b : Nat} (v : Byte) (h : a ≠ b) : peek (m.poke a v) b = peek m b := by
  simp [peek_poke, h]

theorem wfFrom_mono {lo hi : Nat} (h : lo ≤ hi) {m : Memory} (hm : wfFrom hi m = true) : wfFrom lo m = true := by
  cases m with
  | nil => rfl
  | cons c rest =>
    obtain ⟨k, v⟩ := c
    simp only [wfFrom, Bool.and_eq_true, decide_eq_true_eq] at *
    exact ⟨⟨⟨by omega, hm.1.1.2⟩, hm.1.2⟩, hm.2⟩

theorem wfFrom_filter {lo : Nat} {m : Memory} (a : Nat) (hm : wfFrom lo m = true) :
    wfFrom lo (m.filter fun c => c.1 != a) = true := by
  induction m generalizing lo with
  | nil => rfl
  | cons c rest ih =>
    obtain ⟨k, v⟩ := c
    simp only [wfFrom, Bool.and_eq_true, decide_eq_true_eq] at hm
    by_cases hk : k = a
    · simp only [List.filter, hk, bne_self_eq_false]
      exact wfFrom_mono (by omega) (ih hm.2)
    · have : (k != a) = true := by simpa using hk
      simp only [List.filter, this, wfFrom, Bool.and_eq_true, decide_eq_true_eq]
      exact ⟨hm.1, ih hm.2⟩

theorem wfFrom_insertCell {lo a : Nat} {v : Byte} {m : Memory} (hlo : lo ≤ a) (ha : a < Config.memSize)
    (hv : v ≠ Config.resetMem) (hne : ∀ c ∈ m, c.1 ≠ a) (hm : wfFrom lo m = true) :
    wfFrom lo (insertCell a v m) = true := by
  have hv' : (v != Config.resetMem) = true := by simpa using hv
  induction m generalizing lo with
  | nil => simp [insertCell, wfFrom, hlo, ha, hv']
  | cons c rest ih =>
    obtain ⟨k, w⟩ := c
    have hk : k ≠ a := hne (k, w) (by simp)
    unfold insertCell
    simp only [wfFrom, Bool.and_eq_true, decide_eq_true_eq] at hm
    split
    · simp only [wfFrom, Bool.and_eq_true, decide_eq_true_eq]
      exact ⟨⟨⟨hlo, ha⟩, hv'⟩, ⟨⟨by omega, hm.1.1.2⟩, hm.1.2⟩, hm.2⟩
    · simp only [wfFrom, Bool.and_eq_true, decide_eq_true_eq]
      exact ⟨hm.1, ih (by omega) (fun c hc => hne c (by simp [hc])) hm.2⟩

/-- A write at a valid address keeps the canonical form. -/
theorem wf_poke {m : Memory} {a : Nat} (v : Byte) (ha : a < Config.memSize) (hm : m.wf = true) :
    (m.poke a v).wf = true := by
  unfold poke wf
  by_cases hv : v = Config.resetMem
  · simp only [hv, if_true]
    exact wfFrom_filter a hm
  · simp only [hv, if_false]
    exact wfFrom_insertCell (Nat.zero_le a) ha hv (by simp) (wfFrom_filter a hm)

/-- Loading an image that fits keeps the canonical form. -/
theorem wf_loadFrom {m : Memory} {a : Nat} {bytes : List Byte} (h : a + bytes.length ≤ Config.memSize)
    (hm : m.wf = true) : (m.loadFrom a bytes).wf = true := by
  induction bytes generalizing m a with
  | nil => exact hm
  | cons b bs ih =>
    simp only [List.length_cons] at h
    exact ih (by omega) (wf_poke b (by omega) hm)

/-- What a cell holds after a load (70 R262). -/
theorem peek_loadFrom (m : Memory) (a : Nat) (bytes : List Byte) (k : Nat) :
    (m.loadFrom a bytes).peek k = if h : a ≤ k ∧ k < a + bytes.length then bytes[k - a] else m.peek k := by
  induction bytes generalizing m a with
  | nil => simp [loadFrom]
  | cons b bs ih =>
    simp only [loadFrom, ih, List.length_cons, peek_poke]
    by_cases h1 : a = k
    · subst h1; simp
    · by_cases h2 : a + 1 ≤ k ∧ k < a + 1 + bs.length
      · have h3 : a ≤ k ∧ k < a + (bs.length + 1) := by omega
        simp only [h2, h3, and_self, dif_pos]
        rw [List.getElem_cons, dif_neg (by omega)]
        congr 1
      · have h3 : ¬ (a ≤ k ∧ k < a + (bs.length + 1)) := by omega
        simp only [h2, h3, dif_neg, not_false_eq_true, h1, if_false]

/-- The canonical form is one list for each content: memories in canonical form that read alike are equal. -/
theorem eq_of_peek {lo : Nat} {m n : Memory} (hm : wfFrom lo m = true) (hn : wfFrom lo n = true)
    (h : ∀ a, m.peek a = n.peek a) : m = n := by
  have below : ∀ (m : Memory) (lo a : Nat), wfFrom lo m = true → a < lo → m.peek a = Config.resetMem := by
    intro m
    induction m with
    | nil => intros; rfl
    | cons c rest ih =>
      obtain ⟨k, v⟩ := c
      intro lo a hw ha
      simp only [wfFrom, Bool.and_eq_true, decide_eq_true_eq] at hw
      have : k ≠ a := by omega
      simp only [peek, this, if_false]
      exact ih (k + 1) a hw.2 (by omega)
  induction m generalizing lo n with
  | nil =>
    cases n with
    | nil => rfl
    | cons c rest =>
      obtain ⟨k, v⟩ := c
      simp only [wfFrom, Bool.and_eq_true, bne_iff_ne] at hn
      exact absurd (by simpa [peek] using (h k).symm) hn.1.2
  | cons c rest ih =>
    obtain ⟨k, v⟩ := c
    have hm' := hm
    simp only [wfFrom, Bool.and_eq_true, decide_eq_true_eq, bne_iff_ne] at hm
    cases n with
    | nil => exact absurd (by simpa [peek] using h k) hm.1.2
    | cons c' rest' =>
      obtain ⟨k', v'⟩ := c'
      have hn' := hn
      simp only [wfFrom, Bool.and_eq_true, decide_eq_true_eq, bne_iff_ne] at hn
      have hk : k = k' := by
        rcases Nat.lt_trichotomy k k' with hlt | heq | hgt
        · exfalso
          have h1 := h k
          have h2 : peek ((k', v') :: rest') k = Config.resetMem :=
            below _ k' k (by simp only [wfFrom, Bool.and_eq_true, decide_eq_true_eq, bne_iff_ne]; exact ⟨⟨⟨le_refl _, hn.1.1.2⟩, hn.1.2⟩, hn.2⟩) hlt
          rw [h2] at h1
          exact hm.1.2 (by simpa [peek] using h1)
        · exact heq
        · exfalso
          have h1 := h k'
          have h2 : peek ((k, v) :: rest) k' = Config.resetMem :=
            below _ k k' (by simp only [wfFrom, Bool.and_eq_true, decide_eq_true_eq, bne_iff_ne]; exact ⟨⟨⟨le_refl _, hm.1.1.2⟩, hm.1.2⟩, hm.2⟩) hgt
          rw [h2] at h1
          exact hn.1.2 (by simpa [peek] using h1.symm)
      subst hk
      have hv : v = v' := by simpa [peek] using h k
      subst hv
      congr 1
      refine ih hm.2 hn.2 fun a => ?_
      by_cases ha : k = a
      · subst ha
        rw [below rest (k + 1) k hm.2 (by omega), below rest' (k + 1) k hn.2 (by omega)]
      · simpa [peek, ha] using h a

end Sys2Proof.Machine.Memory
end

