-- ==== Sys2Proof/Laws/State.lean ====
section
/-! SUPPORT. Every named update of State against every field: one lemma each, so that no later proof unfolds a record update. -/

namespace Sys2Proof.Machine.State

variable (s : State)

@[simp] theorem writeReg_regs (i : RegIdx) (v : Int) : (s.writeReg i v).regs = s.regs.set i (mask8 v) := rfl
@[simp] theorem writeReg_pc (i : RegIdx) (v : Int) : (s.writeReg i v).pc = s.pc := rfl
@[simp] theorem writeReg_fl (i : RegIdx) (v : Int) : (s.writeReg i v).fl = s.fl := rfl
@[simp] theorem writeReg_run (i : RegIdx) (v : Int) : (s.writeReg i v).run = s.run := rfl
@[simp] theorem writeReg_err (i : RegIdx) (v : Int) : (s.writeReg i v).err = s.err := rfl
@[simp] theorem writeReg_out (i : RegIdx) (v : Int) : (s.writeReg i v).out = s.out := rfl
@[simp] theorem writeReg_mem (i : RegIdx) (v : Int) : (s.writeReg i v).mem = s.mem := rfl

@[simp] theorem setPc_regs (t : Nat) : (s.setPc t).regs = s.regs := rfl
@[simp] theorem setPc_pc (t : Nat) : (s.setPc t).pc = t := rfl
@[simp] theorem setPc_fl (t : Nat) : (s.setPc t).fl = s.fl := rfl
@[simp] theorem setPc_run (t : Nat) : (s.setPc t).run = s.run := rfl
@[simp] theorem setPc_err (t : Nat) : (s.setPc t).err = s.err := rfl
@[simp] theorem setPc_out (t : Nat) : (s.setPc t).out = s.out := rfl
@[simp] theorem setPc_mem (t : Nat) : (s.setPc t).mem = s.mem := rfl

@[simp] theorem setFl_regs (f : BitVec 3) : (s.setFl f).regs = s.regs := rfl
@[simp] theorem setFl_pc (f : BitVec 3) : (s.setFl f).pc = s.pc := rfl
@[simp] theorem setFl_fl (f : BitVec 3) : (s.setFl f).fl = f := rfl
@[simp] theorem setFl_run (f : BitVec 3) : (s.setFl f).run = s.run := rfl
@[simp] theorem setFl_err (f : BitVec 3) : (s.setFl f).err = s.err := rfl
@[simp] theorem setFl_out (f : BitVec 3) : (s.setFl f).out = s.out := rfl
@[simp] theorem setFl_mem (f : BitVec 3) : (s.setFl f).mem = s.mem := rfl

@[simp] theorem emit_regs (v : Byte) : (s.emit v).regs = s.regs := rfl
@[simp] theorem emit_pc (v : Byte) : (s.emit v).pc = s.pc := rfl
@[simp] theorem emit_fl (v : Byte) : (s.emit v).fl = s.fl := rfl
@[simp] theorem emit_run (v : Byte) : (s.emit v).run = s.run := rfl
@[simp] theorem emit_err (v : Byte) : (s.emit v).err = s.err := rfl
@[simp] theorem emit_out (v : Byte) : (s.emit v).out = s.out ++ [v] := rfl
@[simp] theorem emit_mem (v : Byte) : (s.emit v).mem = s.mem := rfl

@[simp] theorem halt_regs : (s.halt).regs = s.regs := rfl
@[simp] theorem halt_pc : (s.halt).pc = s.pc := rfl
@[simp] theorem halt_fl : (s.halt).fl = s.fl := rfl
@[simp] theorem halt_run : (s.halt).run = .stopped := rfl
@[simp] theorem halt_err : (s.halt).err = s.err := rfl
@[simp] theorem halt_out : (s.halt).out = s.out := rfl
@[simp] theorem halt_mem : (s.halt).mem = s.mem := rfl

@[simp] theorem setCell_regs (a : Nat) (v : Byte) : (s.setCell a v).regs = s.regs := rfl
@[simp] theorem setCell_pc (a : Nat) (v : Byte) : (s.setCell a v).pc = s.pc := rfl
@[simp] theorem setCell_fl (a : Nat) (v : Byte) : (s.setCell a v).fl = s.fl := rfl
@[simp] theorem setCell_run (a : Nat) (v : Byte) : (s.setCell a v).run = s.run := rfl
@[simp] theorem setCell_err (a : Nat) (v : Byte) : (s.setCell a v).err = s.err := rfl
@[simp] theorem setCell_out (a : Nat) (v : Byte) : (s.setCell a v).out = s.out := rfl
@[simp] theorem setCell_mem (a : Nat) (v : Byte) : (s.setCell a v).mem = s.mem.poke a v := rfl

@[simp] theorem decSp_regs : (s.decSp).regs = s.regs.set spIdx (mask8 ((s.sp.toNat : Int) - 1)) := rfl
@[simp] theorem decSp_pc : (s.decSp).pc = s.pc := rfl
@[simp] theorem decSp_fl : (s.decSp).fl = s.fl := rfl
@[simp] theorem decSp_run : (s.decSp).run = s.run := rfl
@[simp] theorem decSp_err : (s.decSp).err = s.err := rfl
@[simp] theorem decSp_out : (s.decSp).out = s.out := rfl
@[simp] theorem decSp_mem : (s.decSp).mem = s.mem := rfl

@[simp] theorem incSp_regs : (s.incSp).regs = s.regs.set spIdx (mask8 ((s.sp.toNat : Int) + 1)) := rfl
@[simp] theorem incSp_pc : (s.incSp).pc = s.pc := rfl
@[simp] theorem incSp_fl : (s.incSp).fl = s.fl := rfl
@[simp] theorem incSp_run : (s.incSp).run = s.run := rfl
@[simp] theorem incSp_err : (s.incSp).err = s.err := rfl
@[simp] theorem incSp_out : (s.incSp).out = s.out := rfl
@[simp] theorem incSp_mem : (s.incSp).mem = s.mem := rfl

@[simp] theorem raise_regs (c : Cause) : (s.raise c).regs = s.regs := rfl
@[simp] theorem raise_pc (c : Cause) : (s.raise c).pc = s.pc := rfl
@[simp] theorem raise_fl (c : Cause) : (s.raise c).fl = s.fl := rfl
@[simp] theorem raise_run (c : Cause) : (s.raise c).run = .stopped := rfl
@[simp] theorem raise_err (c : Cause) : (s.raise c).err = some ⟨c, s.pc⟩ := rfl
@[simp] theorem raise_out (c : Cause) : (s.raise c).out = s.out := rfl
@[simp] theorem raise_mem (c : Cause) : (s.raise c).mem = s.mem := rfl

theorem reset_regs : State.reset.regs = #v[0#8, 0#8, 0#8, 0#8, 0#8, 0#8, 0#8, 244#8] := rfl
theorem reset_pc : State.reset.pc = 0 := rfl
theorem reset_fl : State.reset.fl = 0#3 := rfl
theorem reset_run : State.reset.run = .stopped := rfl
theorem reset_err : State.reset.err = none := rfl
theorem reset_out : State.reset.out = [] := rfl
theorem reset_mem : State.reset.mem = [] := rfl

@[simp] theorem setPc_reg (t : Nat) (j : RegIdx) : (s.setPc t).reg j = s.reg j := rfl
@[simp] theorem setFl_reg (f : BitVec 3) (j : RegIdx) : (s.setFl f).reg j = s.reg j := rfl
@[simp] theorem emit_reg (v : Byte) (j : RegIdx) : (s.emit v).reg j = s.reg j := rfl
@[simp] theorem halt_reg (j : RegIdx) : (s.halt).reg j = s.reg j := rfl
@[simp] theorem setCell_reg (a : Nat) (v : Byte) (j : RegIdx) : (s.setCell a v).reg j = s.reg j := rfl
@[simp] theorem raise_reg (c : Cause) (j : RegIdx) : (s.raise c).reg j = s.reg j := rfl

/-- A register reads back what was written, masked (10_state R22). -/
@[simp] theorem writeReg_reg_same (i : RegIdx) (v : Int) : (s.writeReg i v).reg i = mask8 v := by
  simp [writeReg, reg]

/-- A register write leaves the other registers alone. -/
theorem writeReg_reg_ne {i j : RegIdx} (v : Int) (h : j ≠ i) : (s.writeReg i v).reg j = s.reg j := by
  have hv : i.val ≠ j.val := fun e => h (Fin.ext e.symm)
  simp [writeReg, reg, Vector.getElem_set_ne, hv]

theorem writeReg_reg (i j : RegIdx) (v : Int) :
    (s.writeReg i v).reg j = if j = i then mask8 v else s.reg j := by
  by_cases h : j = i
  · subst h; simp
  · simp [h, s.writeReg_reg_ne v h]

/-- Two states are equal when every field is; the registers may be compared one by one. -/
theorem ext_reg {s t : State} (hr : ∀ j, t.reg j = s.reg j) (hp : t.pc = s.pc) (hf : t.fl = s.fl) (hn : t.run = s.run)
    (he : t.err = s.err) (ho : t.out = s.out) (hm : t.mem = s.mem) : t = s := by
  cases s; cases t
  simp only [reg] at *
  subst hp hf hn he ho hm
  congr
  exact Vector.ext fun i hi => hr ⟨i, hi⟩

end Sys2Proof.Machine.State
end

