-- ==== Sys2Proof/Laws/Ops.lean ====
section
/-! SUPPORT. One lemma for each shared operation, saying all it can do. -/

namespace Sys2Proof.Machine

/-! Masking. -/

theorem mask8_toNat (v : Int) : ((mask8 v).toNat : Int) = v % 256 := by
  simp [mask8, BitVec.toNat_ofInt]
  omega

theorem mask8_natCast_toNat (n : Nat) : (mask8 (n : Int)).toNat = n % 256 := by
  have := mask8_toNat n
  omega

@[simp] theorem mask8_byte (b : Byte) : mask8 (b.toNat : Int) = b := by
  apply BitVec.eq_of_toNat_eq
  rw [mask8_natCast_toNat]
  have := b.isLt
  omega

/-! Register operands. -/

theorem regOperand_eq {k : Byte} (h : k.toNat < 8) : regOperand k = .ok ⟨k.toNat, h⟩ := by simp [regOperand, h]

theorem withReg_ok {α : Type} {k : Byte} (h : k.toNat < 8) (f : RegIdx → Except Cause α) :
    withReg k f = f ⟨k.toNat, h⟩ := by simp [withReg, regOperand_eq h]

theorem withReg_error {α : Type} {k : Byte} (h : ¬ k.toNat < 8) (f : RegIdx → Except Cause α) :
    withReg k f = .error .outOfBoundsAddress := by simp [withReg, regOperand, h]

/-- A handler that goes through a register operand and completes had a valid one. -/
theorem withReg_eq_ok {α : Type} {k : Byte} {f : RegIdx → Except Cause α} {x : α} (h : withReg k f = .ok x) :
    ∃ hk : k.toNat < 8, f ⟨k.toNat, hk⟩ = .ok x := by
  by_cases hk : k.toNat < 8
  · exact ⟨hk, by rwa [withReg_ok hk] at h⟩
  · rw [withReg_error hk] at h; cases h

/-- A handler that goes through a register operand and raises, raises for that operand or later. -/
theorem withReg_eq_error {α : Type} {k : Byte} {f : RegIdx → Except Cause α} {c : Cause} (h : withReg k f = .error c) :
    (¬ k.toNat < 8 ∧ c = .outOfBoundsAddress) ∨ ∃ hk : k.toNat < 8, f ⟨k.toNat, hk⟩ = .error c := by
  by_cases hk : k.toNat < 8
  · exact .inr ⟨hk, by rwa [withReg_ok hk] at h⟩
  · rw [withReg_error hk] at h
    exact .inl ⟨hk, by injection h with h; exact h.symm⟩

/-! Data accesses: every data address is a byte, so none is out of range (20_memory R53). -/

@[simp] theorem memRead_byte (s : State) (b : Byte) : s.memRead b.toNat = .ok (s.mem.peek b.toNat) := by
  have : b.toNat < Config.memSize := b.isLt
  simp [State.memRead, this]

@[simp] theorem memWrite_byte (s : State) (b v : Byte) : s.memWrite b.toNat v = .ok (s.setCell b.toNat v) := by
  have : b.toNat < Config.memSize := b.isLt
  simp [State.memWrite, this]

/-! The stack pointer. -/

@[simp] theorem decSp_sp (s : State) : s.decSp.sp = s.sp - 1#8 := by
  have : s.decSp.sp = mask8 ((s.sp.toNat : Int) - 1) := by simp [State.decSp, State.sp]
  rw [this]
  apply BitVec.eq_of_toNat_eq
  have h := mask8_toNat ((s.sp.toNat : Int) - 1)
  have := s.sp.isLt
  rw [BitVec.toNat_sub]
  simp
  omega

@[simp] theorem incSp_sp (s : State) : s.incSp.sp = s.sp + 1#8 := by
  have : s.incSp.sp = mask8 ((s.sp.toNat : Int) + 1) := by simp [State.incSp, State.sp]
  rw [this]
  apply BitVec.eq_of_toNat_eq
  have h := mask8_toNat ((s.sp.toNat : Int) + 1)
  have := s.sp.isLt
  rw [BitVec.toNat_add]
  simp
  omega

theorem decSp_reg (s : State) (j : RegIdx) : s.decSp.reg j = if j = spIdx then s.sp - 1#8 else s.reg j := by
  by_cases h : j = spIdx
  · subst h; simpa [State.sp] using decSp_sp s
  · simp [State.decSp, h, State.writeReg_reg_ne s _ h]

theorem incSp_reg (s : State) (j : RegIdx) : s.incSp.reg j = if j = spIdx then s.sp + 1#8 else s.reg j := by
  by_cases h : j = spIdx
  · subst h; simpa [State.sp] using incSp_sp s
  · simp [State.incSp, h, State.writeReg_reg_ne s _ h]

/-! The end of a step. -/

@[simp] theorem loopAdvance_ldi (s : State) : loopAdvance .ldi s = s.setPc (s.pc + 3) := rfl
@[simp] theorem loopAdvance_prn (s : State) : loopAdvance .prn s = s.setPc (s.pc + 2) := rfl
@[simp] theorem loopAdvance_hlt (s : State) : loopAdvance .hlt s = s.setPc (s.pc + 1) := rfl
@[simp] theorem loopAdvance_mul (s : State) : loopAdvance .mul s = s.setPc (s.pc + 3) := rfl
@[simp] theorem loopAdvance_add (s : State) : loopAdvance .add s = s.setPc (s.pc + 3) := rfl
@[simp] theorem loopAdvance_cmp (s : State) : loopAdvance .cmp s = s.setPc (s.pc + 3) := rfl
@[simp] theorem loopAdvance_and (s : State) : loopAdvance .and s = s.setPc (s.pc + 3) := rfl
@[simp] theorem loopAdvance_or (s : State) : loopAdvance .or s = s.setPc (s.pc + 3) := rfl
@[simp] theorem loopAdvance_xor (s : State) : loopAdvance .xor s = s.setPc (s.pc + 3) := rfl
@[simp] theorem loopAdvance_not (s : State) : loopAdvance .not s = s.setPc (s.pc + 2) := rfl
@[simp] theorem loopAdvance_shl (s : State) : loopAdvance .shl s = s.setPc (s.pc + 3) := rfl
@[simp] theorem loopAdvance_shr (s : State) : loopAdvance .shr s = s.setPc (s.pc + 3) := rfl
@[simp] theorem loopAdvance_mod (s : State) : loopAdvance .mod s = s.setPc (s.pc + 3) := rfl
@[simp] theorem loopAdvance_pop (s : State) : loopAdvance .pop s = s.setPc (s.pc + 2) := rfl
@[simp] theorem loopAdvance_push (s : State) : loopAdvance .push s = s.setPc (s.pc + 2) := rfl
@[simp] theorem loopAdvance_call (s : State) : loopAdvance .call s = s := rfl
@[simp] theorem loopAdvance_ret (s : State) : loopAdvance .ret s = s := rfl
@[simp] theorem loopAdvance_jmp (s : State) : loopAdvance .jmp s = s := rfl
@[simp] theorem loopAdvance_jeq (s : State) : loopAdvance .jeq s = s := rfl
@[simp] theorem loopAdvance_jne (s : State) : loopAdvance .jne s = s := rfl

@[simp] theorem finish_ok (o : Opcode) (s t : State) : finish o s (.ok t) = .next (loopAdvance o t) := rfl

@[simp] theorem finish_error (o : Opcode) (s : State) (c : Cause) : finish o s (.error c) = .next (s.raise c) := rfl

/-- The end of a step answers a next state: the handler's, moved on, or the raising one. -/
theorem finish_next {o : Opcode} {s t : State} {h : Except Cause State} (e : finish o s h = .next t) :
    (∃ u, h = .ok u ∧ t = loopAdvance o u) ∨ (∃ c, h = .error c ∧ t = s.raise c) := by
  cases h with
  | ok u => exact .inl ⟨u, rfl, by simpa using e.symm⟩
  | error c => exact .inr ⟨c, rfl, by simpa using e.symm⟩

/-- A successful handler's program-counter update touches `PC` alone. -/
theorem loopAdvance_eq_setPc (o : Opcode) (s : State) : ∃ p, loopAdvance o s = s.setPc p := by
  unfold loopAdvance
  split
  · exact ⟨s.pc, rfl⟩
  · exact ⟨_, rfl⟩

end Sys2Proof.Machine
end

