-- ==== Sys2Proof/Laws/Exec.lean ====
section
/-! SUPPORT. What an instruction can do: its handler either completes, and the program counter is moved on, or raises. -/

namespace Sys2Proof.Machine

/-- The handler of each instruction, apart from the end of its step. -/
def handler (i : Instr) (s : State) : Except Cause State :=
  match i with
  | .ldi a b => withReg a fun i => .ok (s.writeReg i b.toNat)
  | .prn a => withReg a fun i => .ok (s.emit (s.reg i))
  | .hlt => .ok s.halt
  | .mul a b => aluBinary aluMul a b s
  | .add a b => aluBinary aluAdd a b s
  | .cmp a b => aluCompare a b s
  | .and a b => aluBinary aluAnd a b s
  | .or a b => aluBinary aluOr a b s
  | .xor a b => aluBinary aluXor a b s
  | .not a => aluUnary aluNot a s
  | .shl a b => aluBinary aluShl a b s
  | .shr a b => aluBinary aluShr a b s
  | .mod a b => aluBinary aluMod a b s
  | .pop a => handlePop a s
  | .push a => handlePush a s
  | .call a => handleCall a s
  | .ret => handleRet s
  | .jmp a => jumpTo a s
  | .jeq a => jumpIf s.flagE a s
  | .jne a => jumpIf (!s.flagE) a s

/-- Every instruction is its handler followed by the end of the step (40 R111 lines 4 and 5). -/
theorem exec_eq_finish (i : Instr) (s : State) : exec i s = finish i.opcode s (handler i s) := by cases i <;> rfl

/-- The two ways an instruction can end. -/
theorem exec_next {i : Instr} {s t : State} (h : exec i s = .next t) :
    (∃ u, handler i s = .ok u ∧ t = loopAdvance i.opcode u) ∨ (∃ c, handler i s = .error c ∧ t = s.raise c) :=
  finish_next (exec_eq_finish i s ▸ h)

theorem exec_of_ok {i : Instr} {s u : State} (h : handler i s = .ok u) : exec i s = .next (loopAdvance i.opcode u) := by
  rw [exec_eq_finish, h, finish_ok]

/-- The same with the moved-on state in a form of one's choice (the loopAdvance lemmas give it). -/
theorem exec_of_ok_eq {i : Instr} {s u w : State} (h : handler i s = .ok u) (hw : loopAdvance i.opcode u = w) :
    exec i s = .next w := by rw [exec_of_ok h, hw]

theorem exec_of_error {i : Instr} {s : State} {c : Cause} (h : handler i s = .error c) : exec i s = .next (s.raise c) := by
  rw [exec_eq_finish, h, finish_error]

/-- Raising changes only the report and the running state (60 R229). -/
theorem raise_raisedOnly (s : State) (c : Cause) : raisedOnly s (s.raise c) c :=
  ⟨rfl, rfl, rfl, fun _ => rfl, rfl, rfl, fun _ => rfl⟩

/-- A state in which only a condition was raised is the raising operation's result, up to the form of memory. -/
theorem raisedOnly_err {s t : State} {c : Cause} (h : raisedOnly s t c) : t.err = some ⟨c, s.pc⟩ := h.1

/-! The stack handlers, with their memory access done. -/

theorem handlePush_ok {a : Byte} (h : a.toNat < 8) (s : State) :
    handlePush a s = .ok (s.decSp.setCell s.decSp.sp.toNat (s.decSp.reg ⟨a.toNat, h⟩)) := by
  simp only [handlePush, withReg_ok h, memWrite_byte]

theorem handlePop_ok {a : Byte} (h : a.toNat < 8) (s : State) :
    handlePop a s = .ok (s.writeReg ⟨a.toNat, h⟩ (s.mem.peek s.sp.toNat).toNat).incSp := by
  simp only [handlePop, withReg_ok h, memRead_byte]

theorem handleCall_ok {a : Byte} (h : a.toNat < 8) {s : State} (hp : s.pc + 2 ≤ 255) :
    handleCall a s = .ok ((s.decSp.setCell s.decSp.sp.toNat (BitVec.ofNat 8 (s.pc + 2))).setPc
      (s.decSp.reg ⟨a.toNat, h⟩).toNat) := by
  have : ¬ 255 < s.pc + 2 := by omega
  simp only [handleCall, withReg_ok h, this, if_false, memWrite_byte, State.setCell_reg]

theorem handleRet_ok (s : State) : handleRet s = .ok (s.setPc (s.mem.peek s.sp.toNat).toNat).incSp := by
  simp only [handleRet, memRead_byte]

/-! The ALU's handlers, with their register operands read. -/

theorem aluBinary_ok {a b : Byte} (ha : a.toNat < 8) (hb : b.toNat < 8) (f : Nat → Nat → Except Cause Int) (s : State) :
    aluBinary f a b s = match f (s.reg ⟨a.toNat, ha⟩).toNat (s.reg ⟨b.toNat, hb⟩).toNat with
      | .ok v => .ok (s.writeReg ⟨a.toNat, ha⟩ v)
      | .error c => .error c := by
  exact (withReg_ok ha _).trans (withReg_ok hb _)

/-- A two-operand ALU operation that completes has written its first register. -/
theorem aluBinary_eq_ok {f : Nat → Nat → Except Cause Int} {a b : Byte} {s u : State} (h : aluBinary f a b s = .ok u) :
    ∃ (ha : a.toNat < 8) (_ : b.toNat < 8) (v : Int), u = s.writeReg ⟨a.toNat, ha⟩ v := by
  obtain ⟨ha, h⟩ := withReg_eq_ok h
  obtain ⟨hb, h⟩ := withReg_eq_ok h
  refine ⟨ha, hb, ?_⟩
  cases hf : f (s.reg ⟨a.toNat, ha⟩).toNat (s.reg ⟨b.toNat, hb⟩).toNat with
  | ok v => rw [hf] at h; exact ⟨v, by injection h with h; exact h.symm⟩
  | error c => rw [hf] at h; cases h

/-- A two-operand ALU operation that raises, raises for an index or for the condition of its function. -/
theorem aluBinary_eq_error {f : Nat → Nat → Except Cause Int} {a b : Byte} {s : State} {c : Cause}
    (h : aluBinary f a b s = .error c) :
    ((¬ a.toNat < 8 ∨ ¬ b.toNat < 8) ∧ c = .outOfBoundsAddress) ∨
    ∃ (ha : a.toNat < 8) (hb : b.toNat < 8),
      f (s.reg ⟨a.toNat, ha⟩).toNat (s.reg ⟨b.toNat, hb⟩).toNat = .error c := by
  rcases withReg_eq_error h with ⟨ha, hc⟩ | ⟨ha, h⟩
  · exact .inl ⟨.inl ha, hc⟩
  rcases withReg_eq_error h with ⟨hb, hc⟩ | ⟨hb, h⟩
  · exact .inl ⟨.inr hb, hc⟩
  refine .inr ⟨ha, hb, ?_⟩
  cases hf : f (s.reg ⟨a.toNat, ha⟩).toNat (s.reg ⟨b.toNat, hb⟩).toNat with
  | ok v => rw [hf] at h; cases h
  | error d => rw [hf] at h; injection h with h; rw [h]

/-! Each instruction with its checks passed: the next state, as an update of the state before. -/

section
variable (s : State)

theorem exec_ldi {a : Byte} (b : Byte) (h : a.toNat < 8) :
    exec (.ldi a b) s = .next ((s.writeReg ⟨a.toNat, h⟩ b.toNat).setPc (s.pc + 3)) :=
  exec_of_ok_eq (i := .ldi a b) (by rw [handler, withReg_ok h]) (loopAdvance_ldi _)

theorem exec_prn {a : Byte} (h : a.toNat < 8) :
    exec (.prn a) s = .next ((s.emit (s.reg ⟨a.toNat, h⟩)).setPc (s.pc + 2)) :=
  exec_of_ok_eq (i := .prn a) (by rw [handler, withReg_ok h]) (loopAdvance_prn _)

theorem exec_hlt : exec .hlt s = .next (s.halt.setPc (s.pc + 1)) := rfl

theorem exec_not {a : Byte} (h : a.toNat < 8) :
    exec (.not a) s = .next ((s.writeReg ⟨a.toNat, h⟩ (aluNot (s.reg ⟨a.toNat, h⟩).toNat)).setPc (s.pc + 2)) :=
  exec_of_ok_eq (i := .not a) (by rw [handler, aluUnary, withReg_ok h]) (loopAdvance_not _)

/-- The eight instructions over `aluBinary`, all of them 3 bytes long. -/
theorem exec_binary {i : Instr} {f : Nat → Nat → Except Cause Int} {a b : Byte} (ha : a.toNat < 8) (hb : b.toNat < 8)
    {v : Int} (hf : f (s.reg ⟨a.toNat, ha⟩).toNat (s.reg ⟨b.toNat, hb⟩).toNat = .ok v)
    (hi : ∀ u, handler i u = aluBinary f a b u) (hl : ∀ u, loopAdvance i.opcode u = u.setPc (u.pc + 3)) :
    exec i s = .next ((s.writeReg ⟨a.toNat, ha⟩ v).setPc (s.pc + 3)) :=
  exec_of_ok_eq (by rw [hi, aluBinary_ok ha hb, hf]) (hl _)

theorem exec_add {a b : Byte} (ha : a.toNat < 8) (hb : b.toNat < 8) :
    exec (.add a b) s = .next ((s.writeReg ⟨a.toNat, ha⟩
      (((s.reg ⟨a.toNat, ha⟩).toNat : Int) + ((s.reg ⟨b.toNat, hb⟩).toNat : Int))).setPc (s.pc + 3)) :=
  exec_binary s ha hb (f := aluAdd) rfl (fun _ => rfl) loopAdvance_add

theorem exec_mul {a b : Byte} (ha : a.toNat < 8) (hb : b.toNat < 8) :
    exec (.mul a b) s = .next ((s.writeReg ⟨a.toNat, ha⟩
      (((s.reg ⟨a.toNat, ha⟩).toNat : Int) * ((s.reg ⟨b.toNat, hb⟩).toNat : Int))).setPc (s.pc + 3)) :=
  exec_binary s ha hb (f := aluMul) rfl (fun _ => rfl) loopAdvance_mul

theorem exec_and {a b : Byte} (ha : a.toNat < 8) (hb : b.toNat < 8) :
    exec (.and a b) s = .next ((s.writeReg ⟨a.toNat, ha⟩
      (((s.reg ⟨a.toNat, ha⟩).toNat &&& (s.reg ⟨b.toNat, hb⟩).toNat : Nat) : Int)).setPc (s.pc + 3)) :=
  exec_binary s ha hb (f := aluAnd) rfl (fun _ => rfl) loopAdvance_and

theorem exec_or {a b : Byte} (ha : a.toNat < 8) (hb : b.toNat < 8) :
    exec (.or a b) s = .next ((s.writeReg ⟨a.toNat, ha⟩
      (((s.reg ⟨a.toNat, ha⟩).toNat ||| (s.reg ⟨b.toNat, hb⟩).toNat : Nat) : Int)).setPc (s.pc + 3)) :=
  exec_binary s ha hb (f := aluOr) rfl (fun _ => rfl) loopAdvance_or

theorem exec_xor {a b : Byte} (ha : a.toNat < 8) (hb : b.toNat < 8) :
    exec (.xor a b) s = .next ((s.writeReg ⟨a.toNat, ha⟩
      (((s.reg ⟨a.toNat, ha⟩).toNat ^^^ (s.reg ⟨b.toNat, hb⟩).toNat : Nat) : Int)).setPc (s.pc + 3)) :=
  exec_binary s ha hb (f := aluXor) rfl (fun _ => rfl) loopAdvance_xor

theorem exec_shl {a b : Byte} (ha : a.toNat < 8) (hb : b.toNat < 8) :
    exec (.shl a b) s = .next ((s.writeReg ⟨a.toNat, ha⟩
      (((s.reg ⟨a.toNat, ha⟩).toNat * 2 ^ (s.reg ⟨b.toNat, hb⟩).toNat : Nat) : Int)).setPc (s.pc + 3)) :=
  exec_binary s ha hb (f := aluShl) rfl (fun _ => rfl) loopAdvance_shl

theorem exec_shr {a b : Byte} (ha : a.toNat < 8) (hb : b.toNat < 8) :
    exec (.shr a b) s = .next ((s.writeReg ⟨a.toNat, ha⟩
      (((s.reg ⟨a.toNat, ha⟩).toNat / 2 ^ (s.reg ⟨b.toNat, hb⟩).toNat : Nat) : Int)).setPc (s.pc + 3)) :=
  exec_binary s ha hb (f := aluShr) rfl (fun _ => rfl) loopAdvance_shr

theorem exec_mod {a b : Byte} (ha : a.toNat < 8) (hb : b.toNat < 8) (h0 : (s.reg ⟨b.toNat, hb⟩).toNat ≠ 0) :
    exec (.mod a b) s = .next ((s.writeReg ⟨a.toNat, ha⟩
      (((s.reg ⟨a.toNat, ha⟩).toNat % (s.reg ⟨b.toNat, hb⟩).toNat : Nat) : Int)).setPc (s.pc + 3)) :=
  exec_binary s ha hb (f := aluMod) (if_neg h0) (fun _ => rfl) loopAdvance_mod

theorem exec_mod_zero {a b : Byte} (ha : a.toNat < 8) (hb : b.toNat < 8) (h0 : (s.reg ⟨b.toNat, hb⟩).toNat = 0) :
    exec (.mod a b) s = .next (s.raise .divisionByZero) :=
  exec_of_error (i := .mod a b) (by rw [handler, aluBinary_ok ha hb, aluMod, if_pos h0])

theorem exec_cmp {a b : Byte} (ha : a.toNat < 8) (hb : b.toNat < 8) :
    exec (.cmp a b) s =
      .next ((s.setFl (compareFlags (s.reg ⟨a.toNat, ha⟩) (s.reg ⟨b.toNat, hb⟩))).setPc (s.pc + 3)) :=
  exec_of_ok_eq (i := .cmp a b) (by rw [handler, aluCompare, withReg_ok ha, withReg_ok hb]) (loopAdvance_cmp _)

theorem exec_push {a : Byte} (h : a.toNat < 8) :
    exec (.push a) s =
      .next ((s.decSp.setCell s.decSp.sp.toNat (s.decSp.reg ⟨a.toNat, h⟩)).setPc (s.pc + 2)) :=
  exec_of_ok_eq (i := .push a) (handlePush_ok h s) (loopAdvance_push _)

theorem exec_pop {a : Byte} (h : a.toNat < 8) :
    exec (.pop a) s =
      .next ((s.writeReg ⟨a.toNat, h⟩ (s.mem.peek s.sp.toNat).toNat).incSp.setPc (s.pc + 2)) :=
  exec_of_ok_eq (i := .pop a) (handlePop_ok h s) (loopAdvance_pop _)

theorem exec_call {a : Byte} (h : a.toNat < 8) (hp : s.pc + 2 ≤ 255) :
    exec (.call a) s = .next ((s.decSp.setCell s.decSp.sp.toNat (BitVec.ofNat 8 (s.pc + 2))).setPc
      (s.decSp.reg ⟨a.toNat, h⟩).toNat) :=
  exec_of_ok_eq (i := .call a) (handleCall_ok h hp) (loopAdvance_call _)

theorem exec_ret : exec .ret s = .next (s.setPc (s.mem.peek s.sp.toNat).toNat).incSp :=
  exec_of_ok_eq (i := .ret) (handleRet_ok s) (loopAdvance_ret _)

theorem exec_jmp {a : Byte} (h : a.toNat < 8) : exec (.jmp a) s = .next (s.setPc (s.reg ⟨a.toNat, h⟩).toNat) :=
  exec_of_ok_eq (i := .jmp a) (by rw [handler, jumpTo, withReg_ok h]) (loopAdvance_jmp _)

theorem exec_jeq_taken {a : Byte} (h : a.toNat < 8) (hE : s.flagE = true) :
    exec (.jeq a) s = .next (s.setPc (s.reg ⟨a.toNat, h⟩).toNat) :=
  exec_of_ok_eq (i := .jeq a) (by rw [handler, hE]; exact withReg_ok h _) (loopAdvance_jeq _)

theorem exec_jeq_not_taken (a : Byte) (hE : s.flagE = false) : exec (.jeq a) s = .next (s.setPc (s.pc + 2)) :=
  exec_of_ok_eq (i := .jeq a) (by rw [handler, hE]; rfl) (loopAdvance_jeq _)

theorem exec_jne_taken {a : Byte} (h : a.toNat < 8) (hE : s.flagE = false) :
    exec (.jne a) s = .next (s.setPc (s.reg ⟨a.toNat, h⟩).toNat) :=
  exec_of_ok_eq (i := .jne a) (by rw [handler, hE]; exact withReg_ok h _) (loopAdvance_jne _)

theorem exec_jne_not_taken (a : Byte) (hE : s.flagE = true) : exec (.jne a) s = .next (s.setPc (s.pc + 2)) :=
  exec_of_ok_eq (i := .jne a) (by rw [handler, hE]; rfl) (loopAdvance_jne _)

end

/-! Everything a completed handler leaves alone. -/

/-- A completed handler: which fields it can have changed, instruction by instruction. -/
theorem handler_ok_cases {i : Instr} {s u : State} (h : handler i s = .ok u) :
    (i.opcode ∈ [.ldi, .mul, .add, .and, .or, .xor, .not, .shl, .shr, .mod] ∧
      ∃ j v, writesRegister i j ∧ u = s.writeReg j v) ∨
    (∃ a v, i = .prn a ∧ u = s.emit v) ∨
    (i = .hlt ∧ u = s.halt) ∨
    (∃ a b x y, i = .cmp a b ∧ u = s.setFl (compareFlags x y)) ∨
    (∃ a v, i = .push a ∧ u = s.decSp.setCell s.decSp.sp.toNat v) ∨
    (∃ a j v, i = .pop a ∧ writesRegister i j ∧ u = (s.writeReg j v).incSp) ∨
    (∃ a v p, i = .call a ∧ u = (s.decSp.setCell s.decSp.sp.toNat v).setPc p ∧ p ≤ 255) ∨
    (i = .ret ∧ ∃ p, u = (s.setPc p).incSp ∧ p ≤ 255) ∨
    ((∃ a, i = .jmp a ∨ i = .jeq a ∨ i = .jne a) ∧ ∃ p, u = s.setPc p ∧ (p ≤ 255 ∨ (p = s.pc + 2 ∧ accessedOperands i s = []))) := by
  have alu2 : ∀ f {a b}, aluBinary f a b s = .ok u → (∀ j : RegIdx, a.toNat = j.val → writesRegister i j) →
      ∃ j v, writesRegister i j ∧ u = s.writeReg j v := by
    intro f a b h hw
    obtain ⟨ha, _, v, rfl⟩ := aluBinary_eq_ok h
    exact ⟨_, v, hw _ rfl, rfl⟩
  have jump : ∀ {a}, jumpTo a s = .ok u → ∃ p, u = s.setPc p ∧ p ≤ 255 := by
    intro a h
    obtain ⟨ha, h⟩ := withReg_eq_ok h
    injection h with h
    exact ⟨_, h.symm, by have := (s.reg ⟨a.toNat, ha⟩).isLt; omega⟩
  cases i with
  | ldi a b =>
    obtain ⟨ha, h⟩ := withReg_eq_ok h
    injection h with h
    exact .inl ⟨by simp [Instr.opcode], ⟨a.toNat, ha⟩, _, rfl, h.symm⟩
  | prn a =>
    obtain ⟨ha, h⟩ := withReg_eq_ok h
    injection h with h
    exact .inr (.inl ⟨a, _, rfl, h.symm⟩)
  | hlt =>
    injection h with h
    exact .inr (.inr (.inl ⟨rfl, h.symm⟩))
  | mul a b => exact .inl ⟨by simp [Instr.opcode], alu2 aluMul h fun _ => id⟩
  | add a b => exact .inl ⟨by simp [Instr.opcode], alu2 aluAdd h fun _ => id⟩
  | and a b => exact .inl ⟨by simp [Instr.opcode], alu2 aluAnd h fun _ => id⟩
  | or a b => exact .inl ⟨by simp [Instr.opcode], alu2 aluOr h fun _ => id⟩
  | xor a b => exact .inl ⟨by simp [Instr.opcode], alu2 aluXor h fun _ => id⟩
  | shl a b => exact .inl ⟨by simp [Instr.opcode], alu2 aluShl h fun _ => id⟩
  | shr a b => exact .inl ⟨by simp [Instr.opcode], alu2 aluShr h fun _ => id⟩
  | mod a b => exact .inl ⟨by simp [Instr.opcode], alu2 aluMod h fun _ => id⟩
  | not a =>
    obtain ⟨ha, h⟩ := withReg_eq_ok h
    injection h with h
    exact .inl ⟨by simp [Instr.opcode], ⟨a.toNat, ha⟩, _, rfl, h.symm⟩
  | cmp a b =>
    obtain ⟨ha, h⟩ := withReg_eq_ok h
    obtain ⟨hb, h⟩ := withReg_eq_ok h
    injection h with h
    exact .inr (.inr (.inr (.inl ⟨a, b, _, _, rfl, h.symm⟩)))
  | push a =>
    obtain ⟨ha, -⟩ := withReg_eq_ok h
    rw [handler, handlePush_ok ha] at h
    injection h with h
    exact .inr (.inr (.inr (.inr (.inl ⟨a, _, rfl, h.symm⟩))))
  | pop a =>
    obtain ⟨ha, -⟩ := withReg_eq_ok h
    rw [handler, handlePop_ok ha] at h
    injection h with h
    exact .inr (.inr (.inr (.inr (.inr (.inl ⟨a, ⟨a.toNat, ha⟩, _, rfl, .inl rfl, h.symm⟩)))))
  | call a =>
    obtain ⟨ha, h'⟩ := withReg_eq_ok h
    have hp : s.pc + 2 ≤ 255 := by
      by_contra hn
      rw [if_pos (by omega)] at h'
      cases h'
    rw [handler, handleCall_ok ha hp] at h
    injection h with h
    exact .inr (.inr (.inr (.inr (.inr (.inr (.inl
      ⟨a, _, _, rfl, h.symm, by have := (s.decSp.reg ⟨a.toNat, ha⟩).isLt; omega⟩))))))
  | ret =>
    rw [handler, handleRet_ok] at h
    injection h with h
    exact .inr (.inr (.inr (.inr (.inr (.inr (.inr (.inl
      ⟨rfl, _, h.symm, by have := (s.mem.peek s.sp.toNat).isLt; omega⟩)))))))
  | jmp a =>
    obtain ⟨p, hu, hp⟩ := jump h
    exact .inr (.inr (.inr (.inr (.inr (.inr (.inr (.inr ⟨⟨a, .inl rfl⟩, p, hu, .inl hp⟩)))))))
  | jeq a =>
    refine .inr (.inr (.inr (.inr (.inr (.inr (.inr (.inr ⟨⟨a, .inr (.inl rfl)⟩, ?_⟩)))))))
    cases hE : s.flagE with
    | true =>
      rw [handler, hE] at h
      obtain ⟨p, hu, hp⟩ := jump h
      exact ⟨p, hu, .inl hp⟩
    | false =>
      rw [handler, hE] at h
      injection h with h
      exact ⟨_, h.symm, .inr ⟨rfl, by simp [accessedOperands, hE]⟩⟩
  | jne a =>
    refine .inr (.inr (.inr (.inr (.inr (.inr (.inr (.inr ⟨⟨a, .inr (.inr rfl)⟩, ?_⟩)))))))
    cases hE : s.flagE with
    | false =>
      rw [handler, hE] at h
      obtain ⟨p, hu, hp⟩ := jump h
      exact ⟨p, hu, .inl hp⟩
    | true =>
      rw [handler, hE] at h
      injection h with h
      exact ⟨_, h.symm, .inr ⟨rfl, by simp [accessedOperands, hE]⟩⟩

/-- Why a handler raises: a register operand it accesses, CALL's return address, or MOD's divisor (60 R222, R224). -/
theorem handler_error_cases {i : Instr} {s : State} {c : Cause} (h : handler i s = .error c) :
    (c = .outOfBoundsAddress ∧ ∃ k ∈ accessedOperands i s, 7 < k.toNat) ∨
    (c = .outOfBoundsAddress ∧ ∃ a, i = .call a ∧ 255 < s.pc + 2) ∨
    (c = .divisionByZero ∧ ∃ a b, i = .mod a b ∧ a.toNat < 8 ∧ ∃ hb : b.toNat < 8, (s.reg ⟨b.toNat, hb⟩).toNat = 0) := by
  have one : ∀ {a : Byte} {f : RegIdx → Except Cause State}, withReg a f = .error c → a ∈ accessedOperands i s →
      (∀ j, f j ≠ .error c) → c = .outOfBoundsAddress ∧ ∃ k ∈ accessedOperands i s, 7 < k.toNat := by
    intro a f h hm hf
    rcases withReg_eq_error h with ⟨ha, hc⟩ | ⟨ha, h⟩
    · exact ⟨hc, a, hm, by omega⟩
    · exact absurd h (hf _)
  have two : ∀ (f : Nat → Nat → Except Cause Int) {a b : Byte}, aluBinary f a b s = .error c → a ∈ accessedOperands i s →
      b ∈ accessedOperands i s → (∀ x y, f x y ≠ .error c) →
      c = .outOfBoundsAddress ∧ ∃ k ∈ accessedOperands i s, 7 < k.toNat := by
    intro f a b h hma hmb hf
    rcases aluBinary_eq_error h with ⟨ha | hb, hc⟩ | ⟨ha, hb, h⟩
    · exact ⟨hc, a, hma, by omega⟩
    · exact ⟨hc, b, hmb, by omega⟩
    · exact absurd h (hf _ _)
  cases i with
  | ldi a b => exact .inl (one h (by simp [accessedOperands]) (by simp))
  | prn a => exact .inl (one h (by simp [accessedOperands]) (by simp))
  | hlt => cases h
  | mul a b => exact .inl (two aluMul h (by simp [accessedOperands]) (by simp [accessedOperands]) (by simp [aluMul]))
  | add a b => exact .inl (two aluAdd h (by simp [accessedOperands]) (by simp [accessedOperands]) (by simp [aluAdd]))
  | and a b => exact .inl (two aluAnd h (by simp [accessedOperands]) (by simp [accessedOperands]) (by simp [aluAnd]))
  | or a b => exact .inl (two aluOr h (by simp [accessedOperands]) (by simp [accessedOperands]) (by simp [aluOr]))
  | xor a b => exact .inl (two aluXor h (by simp [accessedOperands]) (by simp [accessedOperands]) (by simp [aluXor]))
  | shl a b => exact .inl (two aluShl h (by simp [accessedOperands]) (by simp [accessedOperands]) (by simp [aluShl]))
  | shr a b => exact .inl (two aluShr h (by simp [accessedOperands]) (by simp [accessedOperands]) (by simp [aluShr]))
  | not a => exact .inl (one h (by simp [accessedOperands]) (by simp))
  | cmp a b =>
    rcases withReg_eq_error h with ⟨ha, hc⟩ | ⟨ha, h⟩
    · exact .inl ⟨hc, a, by simp [accessedOperands], by omega⟩
    · exact .inl (one h (by simp [accessedOperands]) (by simp))
  | mod a b =>
    rcases aluBinary_eq_error h with ⟨ha | hb, hc⟩ | ⟨ha, hb, h⟩
    · exact .inl ⟨hc, a, by simp [accessedOperands], by omega⟩
    · exact .inl ⟨hc, b, by simp [accessedOperands], by omega⟩
    · unfold aluMod at h
      split at h
      · injection h with h
        exact .inr (.inr ⟨h.symm, a, b, rfl, ha, hb, ‹_›⟩)
      · cases h
  | push a =>
    by_cases ha : a.toNat < 8
    · rw [handler, handlePush_ok ha] at h; cases h
    · rw [handler, handlePush, withReg_error ha] at h
      injection h with h
      exact .inl ⟨h.symm, a, by simp [accessedOperands], by omega⟩
  | pop a =>
    by_cases ha : a.toNat < 8
    · rw [handler, handlePop_ok ha] at h; cases h
    · rw [handler, handlePop, withReg_error ha] at h
      injection h with h
      exact .inl ⟨h.symm, a, by simp [accessedOperands], by omega⟩
  | call a =>
    by_cases ha : a.toNat < 8
    · by_cases hp : s.pc + 2 ≤ 255
      · rw [handler, handleCall_ok ha hp] at h; cases h
      · rw [handler, handleCall, withReg_ok ha, if_pos (by omega)] at h
        injection h with h
        exact .inr (.inl ⟨h.symm, a, rfl, by omega⟩)
    · rw [handler, handleCall, withReg_error ha] at h
      injection h with h
      exact .inl ⟨h.symm, a, by simp [accessedOperands], by omega⟩
  | ret => rw [handler, handleRet_ok] at h; cases h
  | jmp a => exact .inl (one h (by simp [accessedOperands]) (by simp))
  | jeq a =>
    cases hE : s.flagE with
    | true =>
      rw [handler, hE] at h
      exact .inl (one h (by simp [accessedOperands, hE]) (by simp))
    | false => rw [handler, hE] at h; cases h
  | jne a =>
    cases hE : s.flagE with
    | false =>
      rw [handler, hE] at h
      exact .inl (one h (by simp [accessedOperands, hE]) (by simp))
    | true => rw [handler, hE] at h; cases h

/-- A handler raises for any register operand above 7 that it accesses (40 R115). -/
theorem handler_of_operand {i : Instr} {s : State} {k : Byte} (hk : k ∈ accessedOperands i s) (h : 7 < k.toNat) :
    handler i s = .error .outOfBoundsAddress := by
  have first : ∀ {α : Type} {a : Byte} {f : RegIdx → Except Cause α}, k = a → withReg a f = .error .outOfBoundsAddress := by
    intro α a f e
    subst e
    exact withReg_error (by omega) f
  have both : ∀ (f : Nat → Nat → Except Cause Int) {a b : Byte}, k = a ∨ k = b →
      aluBinary f a b s = .error .outOfBoundsAddress := by
    rintro f a b (e | e)
    · exact first e
    · by_cases ha : a.toNat < 8
      · rw [aluBinary, withReg_ok ha]; exact first e
      · exact withReg_error ha _
  cases i with
  | hlt => simp [accessedOperands] at hk
  | ret => simp [accessedOperands] at hk
  | ldi a b => exact first (by simpa [accessedOperands] using hk)
  | prn a => exact first (by simpa [accessedOperands] using hk)
  | mul a b => exact both aluMul (by simpa [accessedOperands] using hk)
  | add a b => exact both aluAdd (by simpa [accessedOperands] using hk)
  | and a b => exact both aluAnd (by simpa [accessedOperands] using hk)
  | or a b => exact both aluOr (by simpa [accessedOperands] using hk)
  | xor a b => exact both aluXor (by simpa [accessedOperands] using hk)
  | shl a b => exact both aluShl (by simpa [accessedOperands] using hk)
  | shr a b => exact both aluShr (by simpa [accessedOperands] using hk)
  | mod a b => exact both aluMod (by simpa [accessedOperands] using hk)
  | not a => exact first (by simpa [accessedOperands] using hk)
  | cmp a b =>
    have hk : k = a ∨ k = b := by simpa [accessedOperands] using hk
    rcases hk with e | e
    · exact first e
    · by_cases ha : a.toNat < 8
      · rw [handler, aluCompare, withReg_ok ha]; exact first e
      · exact withReg_error ha _
  | push a => exact first (by simpa [accessedOperands] using hk)
  | pop a => exact first (by simpa [accessedOperands] using hk)
  | call a => exact first (by simpa [accessedOperands] using hk)
  | jmp a => exact first (by simpa [accessedOperands] using hk)
  | jeq a =>
    cases hE : s.flagE with
    | true => rw [handler, hE]; exact first (by simpa [accessedOperands, hE] using hk)
    | false => simp [accessedOperands, hE] at hk
  | jne a =>
    cases hE : s.flagE with
    | false => rw [handler, hE]; exact first (by simpa [accessedOperands, hE] using hk)
    | true => simp [accessedOperands, hE] at hk

end Sys2Proof.Machine
end

