-- ==== Sys2Proof/Laws/Fetch.lean ====
section
/-! SUPPORT. Fetching: what the step finds at `PC` (40 R111 lines 1 to 3). -/

namespace Sys2Proof.Machine

theorem codeBytes_length (m : Memory) (addr count : Nat) :
    (m.codeBytes addr count).length = min count (256 - addr) := by
  induction count generalizing addr with
  | zero => simp [Memory.codeBytes]
  | succ n ih =>
    unfold Memory.codeBytes
    by_cases h : addr < Config.memSize
    · rw [if_pos h, List.length_cons, ih]
      have : addr < 256 := h
      omega
    · rw [if_neg h]
      have : ¬ addr < 256 := h
      simp
      omega

theorem codeBytes_getElem (m : Memory) (addr count k : Nat) (h : k < (m.codeBytes addr count).length) :
    (m.codeBytes addr count)[k] = m.peek (addr + k) := by
  induction count generalizing addr k with
  | zero => simp [Memory.codeBytes] at h
  | succ n ih =>
    by_cases ha : addr < Config.memSize
    · have e : m.codeBytes addr (n + 1) = m.peek addr :: m.codeBytes (addr + 1) n := by
        rw [Memory.codeBytes, if_pos ha]
      cases k with
      | zero => simp [e]
      | succ k =>
        simp only [e, List.getElem_cons_succ]
        rw [ih]
        congr 1
        omega
    · have e : m.codeBytes addr (n + 1) = [] := by rw [Memory.codeBytes, if_neg ha]
      simp [e] at h

/-- Beyond the last cell there is no opcode (40 R112). -/
theorem fetch_beyond {s : State} (h : 255 < s.pc) : fetch s = .error .outOfBoundsAddress := by
  have : ¬ s.pc < Config.memSize := by show ¬ s.pc < 256; omega
  simp [fetch, Memory.codeBytes, this, decode, fetchCause]

/-- The opcode byte, then up to two more. -/
theorem codeBytes_three {s : State} (h : s.pc ≤ 255) :
    s.mem.codeBytes s.pc 3 = s.mem.peek s.pc :: s.mem.codeBytes (s.pc + 1) 2 := by
  have : s.pc < Config.memSize := by show s.pc < 256; omega
  rw [Memory.codeBytes, if_pos this]

theorem fetch_unknown {s : State} (h : s.pc ≤ 255) (hd : dispatch (s.mem.peek s.pc) = none) :
    fetch s = .error .unknownOpcode := by
  simp [fetch, codeBytes_three h, decode_unknown _ hd, fetchCause]

/-- An operand byte beyond the last cell (40 R114). -/
theorem fetch_operand_beyond {s : State} {o : Opcode} (h : s.pc ≤ 255) (hd : dispatch (s.mem.peek s.pc) = some o)
    (hn : 255 < s.pc + o.operandCount) : fetch s = .error .outOfBoundsAddress := by
  have he : decodeOperands o (s.mem.codeBytes (s.pc + 1) 2) = .error (.missingOperand o) := by
    rw [decodeOperands_error_iff]
    refine ⟨?_, rfl⟩
    rw [codeBytes_length]
    have := operandCount_le_two o
    omega
  simp [fetch, codeBytes_three h, decode_known _ hd, he, fetchCause]

/-- With its operand bytes in memory, an instruction is found whole. -/
theorem fetch_known {s : State} {o : Opcode} (h : s.pc ≤ 255) (hd : dispatch (s.mem.peek s.pc) = some o)
    (hn : s.pc + o.operandCount ≤ 255) : ∃ i, fetch s = .ok i ∧ i.opcode = o ∧ s.holds i := by
  cases hdec : decodeOperands o (s.mem.codeBytes (s.pc + 1) 2) with
  | error e =>
    have := (decodeOperands_error_iff _ _ _).1 hdec
    rw [codeBytes_length] at this
    have := operandCount_le_two o
    omega
  | ok p =>
    obtain ⟨i, rest⟩ := p
    obtain ⟨ho, hb⟩ := decodeOperands_ok hdec
    have hbytes : s.mem.codeBytes s.pc 3 = encode i ++ rest := by
      rw [codeBytes_three h, hb, encode, ho, byte_of_dispatch hd]; rfl
    refine ⟨i, ?_, ho, ?_, ?_⟩
    · simp [fetch, codeBytes_three h, decode_known _ hd, hdec]
    · rw [encode_length, ho]; omega
    · intro k hk
      have hlen : k < (s.mem.codeBytes s.pc 3).length := by rw [hbytes, List.length_append]; omega
      rw [← codeBytes_getElem s.mem s.pc 3 k hlen]
      simp only [hbytes, List.getElem_append_left hk]

/-- The four things a fetch can find, in the order of 60 R228. -/
theorem fetch_cases (s : State) :
    (255 < s.pc ∧ fetch s = .error .outOfBoundsAddress) ∨
    (s.pc ≤ 255 ∧ dispatch (s.mem.peek s.pc) = none ∧ fetch s = .error .unknownOpcode) ∨
    (s.pc ≤ 255 ∧ (∃ o, dispatch (s.mem.peek s.pc) = some o ∧ 255 < s.pc + o.operandCount) ∧
      fetch s = .error .outOfBoundsAddress) ∨
    (s.pc ≤ 255 ∧ ∃ i, fetch s = .ok i ∧ s.holds i ∧ dispatch (s.mem.peek s.pc) = some i.opcode) := by
  by_cases h : 255 < s.pc
  · exact .inl ⟨h, fetch_beyond h⟩
  have h : s.pc ≤ 255 := by omega
  cases hd : dispatch (s.mem.peek s.pc) with
  | none => exact .inr (.inl ⟨h, rfl, fetch_unknown h hd⟩)
  | some o =>
    by_cases hn : 255 < s.pc + o.operandCount
    · exact .inr (.inr (.inl ⟨h, ⟨o, rfl, hn⟩, fetch_operand_beyond h hd hn⟩))
    · obtain ⟨i, hi, ho, hh⟩ := fetch_known h hd (by omega)
      exact .inr (.inr (.inr ⟨h, i, hi, hh, by rw [ho]⟩))

/-- At a place that holds an instruction, the byte at `PC` is its opcode. -/
theorem holds_opcode {s : State} {i : Instr} (h : s.holds i) : s.pc ≤ 255 ∧ s.mem.peek s.pc = i.opcode.byte := by
  obtain ⟨hl, hb⟩ := h
  have hpos : 0 < (encode i).length := by rw [encode_length]; omega
  exact ⟨by rw [encode_length] at hl; omega, hb 0 hpos⟩

/-- At most one instruction stands at a place. -/
theorem holds_unique {s : State} {i j : Instr} (hi : s.holds i) (hj : s.holds j) : i = j := by
  have ho : i.opcode = j.opcode := by
    have e : i.opcode.byte = j.opcode.byte := (holds_opcode hi).2.symm.trans (holds_opcode hj).2
    have := dispatch_byte i.opcode
    rw [e, dispatch_byte] at this
    exact (Option.some.inj this).symm
  have hlen : (encode i).length = (encode j).length := by rw [encode_length, encode_length, ho]
  have hb : encode i = encode j := List.ext_getElem hlen fun k h1 h2 => (hi.2 k h1).symm.trans (hj.2 k h2)
  have hop : i.operands = j.operands := by
    have := congrArg List.tail hb
    simpa [encode] using this
  cases i <;> cases j <;> first | (cases ho; done) | simp_all [Instr.operands, Instr.opcode]

theorem fetch_of_holds {s : State} {i : Instr} (h : s.holds i) : fetch s = .ok i := by
  obtain ⟨hp, hop⟩ := holds_opcode h
  have hd : dispatch (s.mem.peek s.pc) = some i.opcode := by rw [hop, dispatch_byte]
  have hn : s.pc + i.opcode.operandCount ≤ 255 := by have := h.1; rw [encode_length] at this; omega
  obtain ⟨j, hj, -, hh⟩ := fetch_known hp hd hn
  rw [hj, holds_unique hh h]

/-! The step. -/

theorem step_stopped {s : State} (h : s.run = .stopped) : step s = .next s := by simp [step, h]

theorem step_of_ok {s : State} {i : Instr} (hr : s.run = .running) (h : fetch s = .ok i) : step s = exec i s := by
  simp [step, hr, h]

theorem step_of_error {s : State} {c : Cause} (hr : s.run = .running) (h : fetch s = .error c) :
    step s = .next (s.raise c) := by simp [step, hr, h]

/-- What a step that answers a next state can have done. -/
theorem step_cases {s t : State} (h : step s = .next t) :
    (s.run = .stopped ∧ t = s) ∨
    (s.run = .running ∧ ∃ i, s.pc ≤ 255 ∧ s.holds i ∧ dispatch (s.mem.peek s.pc) = some i.opcode ∧ exec i s = .next t) ∨
    (s.run = .running ∧ ∃ c, fetch s = .error c ∧ (c = .outOfBoundsAddress ∨ c = .unknownOpcode) ∧ t = s.raise c) := by
  cases hr : s.run with
  | stopped =>
    rw [step_stopped hr] at h
    injection h with h
    exact .inl ⟨rfl, h.symm⟩
  | running =>
    rcases fetch_cases s with ⟨-, hf⟩ | ⟨-, -, hf⟩ | ⟨-, -, hf⟩ | ⟨hp, i, hf, hh, hd⟩
    · rw [step_of_error hr hf] at h
      injection h with h
      exact .inr (.inr ⟨rfl, _, hf, .inl rfl, h.symm⟩)
    · rw [step_of_error hr hf] at h
      injection h with h
      exact .inr (.inr ⟨rfl, _, hf, .inr rfl, h.symm⟩)
    · rw [step_of_error hr hf] at h
      injection h with h
      exact .inr (.inr ⟨rfl, _, hf, .inl rfl, h.symm⟩)
    · rw [step_of_ok hr hf] at h
      exact .inr (.inl ⟨rfl, i, hp, hh, hd, h⟩)

end Sys2Proof.Machine
end

