-- ==== Sys2Proof/Laws/PerInstr.lean ====
section
/-! SUPPORT. Facts about every instruction as syntax, one lemma for each constructor. -/

/-- The operand bytes of an instruction decode, under its own row, to the instruction, and the bytes after them are left. -/
def Sys2Proof.Laws.OperandsRoundTrip.Statement (i : Sys2Proof.Instr) : Prop :=
  ∀ rest : List Sys2Proof.Byte, Sys2Proof.decodeOperands i.opcode (i.operands ++ rest) = .ok (i, rest)

theorem Sys2Proof.Laws.OperandsRoundTrip.ldi (a b : Sys2Proof.Byte) : Sys2Proof.Laws.OperandsRoundTrip.Statement (.ldi a b) := fun _ => rfl
theorem Sys2Proof.Laws.OperandsRoundTrip.prn (a : Sys2Proof.Byte) : Sys2Proof.Laws.OperandsRoundTrip.Statement (.prn a) := fun _ => rfl
theorem Sys2Proof.Laws.OperandsRoundTrip.hlt : Sys2Proof.Laws.OperandsRoundTrip.Statement .hlt := fun _ => rfl
theorem Sys2Proof.Laws.OperandsRoundTrip.mul (a b : Sys2Proof.Byte) : Sys2Proof.Laws.OperandsRoundTrip.Statement (.mul a b) := fun _ => rfl
theorem Sys2Proof.Laws.OperandsRoundTrip.add (a b : Sys2Proof.Byte) : Sys2Proof.Laws.OperandsRoundTrip.Statement (.add a b) := fun _ => rfl
theorem Sys2Proof.Laws.OperandsRoundTrip.cmp (a b : Sys2Proof.Byte) : Sys2Proof.Laws.OperandsRoundTrip.Statement (.cmp a b) := fun _ => rfl
theorem Sys2Proof.Laws.OperandsRoundTrip.and (a b : Sys2Proof.Byte) : Sys2Proof.Laws.OperandsRoundTrip.Statement (.and a b) := fun _ => rfl
theorem Sys2Proof.Laws.OperandsRoundTrip.or (a b : Sys2Proof.Byte) : Sys2Proof.Laws.OperandsRoundTrip.Statement (.or a b) := fun _ => rfl
theorem Sys2Proof.Laws.OperandsRoundTrip.xor (a b : Sys2Proof.Byte) : Sys2Proof.Laws.OperandsRoundTrip.Statement (.xor a b) := fun _ => rfl
theorem Sys2Proof.Laws.OperandsRoundTrip.not (a : Sys2Proof.Byte) : Sys2Proof.Laws.OperandsRoundTrip.Statement (.not a) := fun _ => rfl
theorem Sys2Proof.Laws.OperandsRoundTrip.shl (a b : Sys2Proof.Byte) : Sys2Proof.Laws.OperandsRoundTrip.Statement (.shl a b) := fun _ => rfl
theorem Sys2Proof.Laws.OperandsRoundTrip.shr (a b : Sys2Proof.Byte) : Sys2Proof.Laws.OperandsRoundTrip.Statement (.shr a b) := fun _ => rfl
theorem Sys2Proof.Laws.OperandsRoundTrip.mod (a b : Sys2Proof.Byte) : Sys2Proof.Laws.OperandsRoundTrip.Statement (.mod a b) := fun _ => rfl
theorem Sys2Proof.Laws.OperandsRoundTrip.pop (a : Sys2Proof.Byte) : Sys2Proof.Laws.OperandsRoundTrip.Statement (.pop a) := fun _ => rfl
theorem Sys2Proof.Laws.OperandsRoundTrip.push (a : Sys2Proof.Byte) : Sys2Proof.Laws.OperandsRoundTrip.Statement (.push a) := fun _ => rfl
theorem Sys2Proof.Laws.OperandsRoundTrip.call (a : Sys2Proof.Byte) : Sys2Proof.Laws.OperandsRoundTrip.Statement (.call a) := fun _ => rfl
theorem Sys2Proof.Laws.OperandsRoundTrip.ret : Sys2Proof.Laws.OperandsRoundTrip.Statement .ret := fun _ => rfl
theorem Sys2Proof.Laws.OperandsRoundTrip.jmp (a : Sys2Proof.Byte) : Sys2Proof.Laws.OperandsRoundTrip.Statement (.jmp a) := fun _ => rfl
theorem Sys2Proof.Laws.OperandsRoundTrip.jeq (a : Sys2Proof.Byte) : Sys2Proof.Laws.OperandsRoundTrip.Statement (.jeq a) := fun _ => rfl
theorem Sys2Proof.Laws.OperandsRoundTrip.jne (a : Sys2Proof.Byte) : Sys2Proof.Laws.OperandsRoundTrip.Statement (.jne a) := fun _ => rfl
end

