-- ==== Sys2Proof/Tests/Slice0.lean ====
section
/-! SUPPORT. Tests of the model, and for every obligation with hypotheses a witness that meets them. Expected results are the
spec's: the encodings of 30_encoding R85 and the vectors V and S of 95_test_vectors, named at each test. -/

namespace Sys2Proof.Tests

open Sys2Proof Sys2Proof.Machine

/-! Well-formedness: each check refuses an ill-formed term, and the largest register index passes. -/

theorem test_wf_first_operand :
    [Instr.ldi 8 0, .prn 8, .mul 8 0, .add 8 0, .cmp 8 0, .and 8 0, .or 8 0, .xor 8 0, .not 8, .shl 8 0, .shr 8 0, .mod 8 0,
      .pop 8, .push 8, .call 8, .jmp 8, .jeq 8, .jne 8].all (fun i => !i.wellFormed) = true := by decide

theorem test_wf_second_operand :
    [Instr.mul 0 8, .add 0 8, .cmp 0 8, .and 0 8, .or 0 8, .xor 0 8, .shl 0 8, .shr 0 8, .mod 0 8].all
      (fun i => !i.wellFormed) = true := by decide

theorem test_wf_accepts :
    [Instr.ldi 7 255, .prn 7, .hlt, .mul 7 7, .add 7 7, .cmp 7 7, .and 7 7, .or 7 7, .xor 7 7, .not 7, .shl 7 7, .shr 7 7,
      .mod 7 7, .pop 7, .push 7, .call 7, .ret, .jmp 7, .jeq 7, .jne 7].all Instr.wellFormed = true := by decide

/-! Decoding: a word of every row, written out from 30_encoding R85. -/

theorem test_decode_ldi : decode [0b10000010, 3, 0xAB] = .ok (.ldi 3 0xAB, []) := by rfl
theorem test_decode_prn : decode [0b01000111, 2] = .ok (.prn 2, []) := by rfl
theorem test_decode_hlt : decode [0b00000001] = .ok (.hlt, []) := by rfl
theorem test_decode_mul : decode [0b10100010, 1, 2] = .ok (.mul 1 2, []) := by rfl
theorem test_decode_add : decode [0b10100000, 1, 2] = .ok (.add 1 2, []) := by rfl
theorem test_decode_cmp : decode [0b10100111, 1, 2] = .ok (.cmp 1 2, []) := by rfl
theorem test_decode_and : decode [0b10101000, 1, 2] = .ok (.and 1 2, []) := by rfl
theorem test_decode_or : decode [0b10101010, 1, 2] = .ok (.or 1 2, []) := by rfl
theorem test_decode_xor : decode [0b10101011, 1, 2] = .ok (.xor 1 2, []) := by rfl
theorem test_decode_not : decode [0b01101001, 4] = .ok (.not 4, []) := by rfl
theorem test_decode_shl : decode [0b10101100, 1, 2] = .ok (.shl 1 2, []) := by rfl
theorem test_decode_shr : decode [0b10101101, 1, 2] = .ok (.shr 1 2, []) := by rfl
theorem test_decode_mod : decode [0b10100100, 1, 2] = .ok (.mod 1 2, []) := by rfl
theorem test_decode_pop : decode [0b01000110, 1] = .ok (.pop 1, []) := by rfl
theorem test_decode_push : decode [0b01000101, 1] = .ok (.push 1, []) := by rfl
theorem test_decode_call : decode [0b01010000, 1] = .ok (.call 1, []) := by rfl
theorem test_decode_ret : decode [0b00010001] = .ok (.ret, []) := by rfl
theorem test_decode_jmp : decode [0b01010100, 1] = .ok (.jmp 1, []) := by rfl
theorem test_decode_jeq : decode [0b01010101, 1] = .ok (.jeq 1, []) := by rfl
theorem test_decode_jne : decode [0b01010110, 1] = .ok (.jne 1, []) := by rfl

/-- V3's bytes: a register byte above 7 is a legal encoding and is not masked (30_encoding R83). -/
theorem test_decode_keeps_whole_operand : decode [0x82, 8, 5, 0x01] = .ok (.ldi 8 5, [0x01]) := by rfl

/-- V100 to V106, V114, V115: bytes outside the table. -/
theorem test_decode_unknown :
    ([0x00, 0xA1, 0xA3, 0xC0, 0xFF, 0x83, 0x02, 0x41, 0x20] : List Byte).all
      (fun op => decode [op, 0, 0] == .error (.unknownOpcode op)) = true := by decide

/-- 30_encoding R90: an instruction is not shorter than its opcode says. -/
theorem test_decode_missing_operand :
    decode [] = .error .noOpcode ∧ decode [0x82, 0] = .error (.missingOperand .ldi) ∧ decode [0x47] = .error (.missingOperand .prn) :=
  ⟨rfl, rfl, rfl⟩

/-- Table words: bit 0 is the least significant bit of the first byte. -/
theorem test_table_word :
    decodeTableWord 24 0xAB0382 = some (.ldi 3 0xAB) ∧ decodeTableWord 16 0x0247 = some (.prn 2) ∧
    decodeTableWord 8 0x01 = some .hlt ∧ decodeTableWord 8 0x82 = some (.ldi 0 0) ∧ decodeTableWord 8 0x00 = none := by decide

/-! One step each: the vectors of 95_test_vectors section 2. -/

/-- A running core: the reset state with `PC`, and the bytes there, as given. -/
def code (pc : Nat) (bytes : List Byte) : State :=
  { State.reset with pc := pc, mem := Memory.loadFrom [] pc bytes, run := .running }

/-- `s` with register `i` holding `v`. -/
def put (i : RegIdx) (v : Byte) (s : State) : State := { s with regs := s.regs.set i v }

/-- `s` with `FL` holding `f`. -/
def flags (f : BitVec 3) (s : State) : State := { s with fl := f }

/-- `s` with cell `addr` holding `v`. -/
def cell (addr : Nat) (v : Byte) (s : State) : State := { s with mem := s.mem.poke addr v }

/-- `s` with `PC` holding `pc`. -/
def goto (pc : Nat) (s : State) : State := { s with pc := pc }

/-- `s` stopped with a report, nothing else changed. -/
def failing (c : Cause) (pc : Nat) (s : State) : State := { s with err := some ⟨c, pc⟩, run := .stopped }

/-- The step from `s` gives exactly the state `t`. -/
def stepsTo (s t : State) : Bool :=
  match step s with
  | .next u => decide (u = t)
  | .fault _ => false
  | .refused _ => false

/-- The step from `s` raises `c` with report `pc` and changes nothing else. -/
def stepFails (s : State) (c : Cause) (pc : Nat) : Bool := stepsTo s (failing c pc s)

def r0r1 (x y : Byte) (bytes : List Byte) : State := put 0 x (put 1 y (code 0 bytes))

theorem test_ldi_v1 :
    stepsTo (code 0 [0x82, 0x03, 0xAB]) (goto 3 (put 3 171 (code 0 [0x82, 0x03, 0xAB]))) = true := by decide
theorem test_ldi_v3 : stepFails (code 0 [0x82, 0x08, 0x05]) .outOfBoundsAddress 0 = true := by decide

theorem test_prn_v5 :
    let s := put 2 200 (code 10 [0x47, 0x02])
    stepsTo s (goto 12 { s with out := [200] }) = true := by decide
/-- Oldest first (10_state R34), then V8. -/
theorem test_prn_appends_v8 :
    let s := { code 0 [0x47, 0x07] with out := [1, 2] }
    stepsTo s (goto 2 { s with out := [1, 2, 244] }) = true := by decide

theorem test_push_v12 :
    let s := put 0 9 (put 7 0 (code 16 [0x45, 0x00]))
    stepsTo s (goto 18 (put 7 255 (cell 255 9 s))) = true := by decide
theorem test_push_v14 :
    stepsTo (code 0 [0x45, 0x07]) (goto 2 (put 7 243 (cell 243 243 (code 0 [0x45, 0x07])))) = true := by decide

theorem test_pop_v11 :
    let s := cell 243 90 (put 7 243 (code 0 [0x46, 0x01]))
    stepsTo s (goto 2 (put 1 90 (put 7 244 s))) = true := by decide
theorem test_pop_v15 :
    let s := cell 243 10 (put 7 243 (code 0 [0x46, 0x07]))
    stepsTo s (goto 2 (put 7 11 s)) = true := by decide

theorem test_hlt_v20 :
    stepsTo (code 0 [0x01]) { goto 1 (code 0 [0x01]) with run := .stopped } = true := by decide
theorem test_hlt_v21 :
    stepsTo (code 255 [0x01]) { goto 256 (code 255 [0x01]) with run := .stopped } = true := by decide

theorem test_jmp_v22 :
    stepsTo (put 2 64 (code 0 [0x54, 0x02])) (goto 64 (put 2 64 (code 0 [0x54, 0x02]))) = true := by decide
theorem test_jmp_v45 : stepFails (code 0 [0x54, 0x08]) .outOfBoundsAddress 0 = true := by decide

theorem test_jeq_v24_v26 :
    let s := fun f => flags f (put 2 64 (code 0 [0x55, 0x02]))
    stepsTo (s 0b001) (goto 64 (s 0b001)) = true ∧ stepsTo (s 0b010) (goto 2 (s 0b010)) = true := by decide
theorem test_jeq_v30_v31 :
    let s := fun f => flags f (code 0 [0x55, 0x09])
    stepsTo (s 0b000) (goto 2 (s 0b000)) = true ∧ stepFails (s 0b001) .outOfBoundsAddress 0 = true := by decide

theorem test_jne_v27_v28 :
    let s := fun f => flags f (put 2 64 (code 0 [0x56, 0x02]))
    stepsTo (s 0b001) (goto 2 (s 0b001)) = true ∧ stepsTo (s 0b100) (goto 64 (s 0b100)) = true := by decide
theorem test_jne_v32_v33 :
    let s := fun f => flags f (code 0 [0x56, 0x09])
    stepsTo (s 0b001) (goto 2 (s 0b001)) = true ∧ stepFails (s 0b100) .outOfBoundsAddress 0 = true := by decide

theorem test_call_v34_v39 :
    let s := put 0 20 (code 2 [0x50, 0x00])
    let r := code 0 [0x50, 0x07]
    stepsTo s (goto 20 (put 7 243 (cell 243 4 s))) = true ∧ stepsTo r (goto 243 (put 7 243 (cell 243 2 r))) = true := by decide
theorem test_call_v36_v37 :
    let s := fun pc => put 0 20 (code pc [0x50, 0x00])
    stepFails (s 254) .outOfBoundsAddress 254 = true ∧
      stepsTo (s 253) (goto 20 (put 7 243 (cell 243 255 (s 253)))) = true := by decide

theorem test_ret_v35 :
    let s := cell 243 4 (put 7 243 (code 20 [0x11]))
    stepsTo s (goto 4 (put 7 244 s)) = true := by decide
theorem test_ret_v40 :
    let s := cell 255 7 (put 7 255 (code 0 [0x11]))
    stepsTo s (goto 7 (put 7 0 s)) = true := by decide

theorem test_and_v50 :
    let s := flags 0b010 (r0r1 204 170 [0xA8, 0x00, 0x01])
    stepsTo s (goto 3 (put 0 136 s)) = true := by decide
theorem test_and_v66 : stepFails (put 0 204 (code 0 [0xA8, 0x00, 0x08])) .outOfBoundsAddress 0 = true := by decide

theorem test_or_v51 :
    let s := r0r1 204 170 [0xAA, 0x00, 0x01]
    stepsTo s (goto 3 (put 0 238 s)) = true := by decide

theorem test_xor_v52 :
    let s := r0r1 204 170 [0xAB, 0x00, 0x01]
    stepsTo s (goto 3 (put 0 102 s)) = true := by decide
theorem test_xor_v65 :
    let s := put 3 90 (code 0 [0xAB, 0x03, 0x03])
    stepsTo s (goto 3 (put 3 0 s)) = true := by decide

theorem test_not_v53 :
    let s := put 0 204 (code 0 [0x69, 0x00])
    stepsTo s (goto 2 (put 0 51 s)) = true := by decide
theorem test_not_v67 : stepFails (code 0 [0x69, 0x08]) .outOfBoundsAddress 0 = true := by decide

theorem test_shl_v56 :
    let s := r0r1 150 1 [0xAC, 0x00, 0x01]
    stepsTo s (goto 3 (put 0 44 s)) = true := by decide
theorem test_shl_v57_v58 :
    let s := fun n => r0r1 1 n [0xAC, 0x00, 0x01]
    stepsTo (s 7) (goto 3 (put 0 128 (s 7))) = true ∧ stepsTo (s 8) (goto 3 (put 0 0 (s 8))) = true := by decide

theorem test_shr_v61 :
    let s := r0r1 150 1 [0xAD, 0x00, 0x01]
    stepsTo s (goto 3 (put 0 75 s)) = true := by decide
theorem test_shr_v63_v64 :
    let s := r0r1 255 8 [0xAD, 0x00, 0x01]
    let r := r0r1 128 0 [0xAD, 0x00, 0x01]
    stepsTo s (goto 3 (put 0 0 s)) = true ∧ stepsTo r (goto 3 r) = true := by decide

theorem test_add_v71 :
    let s := r0r1 255 1 [0xA0, 0x00, 0x01]
    stepsTo s (goto 3 (put 0 0 s)) = true := by decide
theorem test_add_v75 :
    let s := put 0 12 (code 0 [0xA0, 0x07, 0x00])
    stepsTo s (goto 3 (put 7 0 s)) = true := by decide

theorem test_mul_v77 :
    let s := r0r1 255 255 [0xA2, 0x00, 0x01]
    stepsTo s (goto 3 (put 0 1 s)) = true := by decide
theorem test_mul_v79 :
    let s := put 0 20 (code 0 [0xA2, 0x00, 0x00])
    stepsTo s (goto 3 (put 0 144 s)) = true := by decide

theorem test_mod_v80_v84 :
    let s := r0r1 17 5 [0xA4, 0x00, 0x01]
    stepsTo s (goto 3 (put 0 2 s)) = true ∧
      stepFails (put 0 9 (code 14 [0xA4, 0x00, 0x01])) .divisionByZero 14 = true := by decide
theorem test_mod_v93_v94 :
    stepFails (code 0 [0xA4, 0x08, 0x01]) .outOfBoundsAddress 0 = true ∧
      stepFails (code 0 [0xA4, 0x00, 0x08]) .outOfBoundsAddress 0 = true := by decide

theorem test_cmp_v87_v90 :
    let s := r0r1 5 5 [0xA7, 0x00, 0x01]
    let r := r0r1 200 100 [0xA7, 0x00, 0x01]
    stepsTo s (goto 3 (flags 0b001 s)) = true ∧ stepsTo r (goto 3 (flags 0b010 r)) = true := by decide
theorem test_cmp_v89 :
    let s := flags 0b001 (r0r1 5 6 [0xA7, 0x00, 0x01])
    stepsTo s (goto 3 (flags 0b100 s)) = true := by decide

/-- V95, V97, V98, V99b: the ALU functions no opcode reaches. -/
theorem test_alu_sub_div :
    let s := fun x y => r0r1 x y []
    alu (some .sub) 0 1 (s 5 10) = .ok (put 0 251 (s 5 10)) ∧ alu (some .sub) 0 1 (s 200 100) = .ok (put 0 100 (s 200 100)) ∧
    alu (some .div) 0 1 (s 17 5) = .ok (put 0 3 (s 17 5)) ∧ alu (some .div) 0 1 (s 9 0) = .error .divisionByZero :=
  ⟨rfl, rfl, rfl, rfl⟩

/-! Fetch (V100 to V115). -/

theorem test_fetch_unknown_v100_v102_v103 :
    stepFails (code 0 [0x00]) .unknownOpcode 0 = true ∧ stepFails (put 0 5 (code 0 [0xA3, 0x00, 0x01])) .unknownOpcode 0 = true ∧
      stepFails (code 0 [0xC0]) .unknownOpcode 0 = true := by decide
theorem test_fetch_unknown_v107 : stepFails (code 255 [0xFF]) .unknownOpcode 255 = true := by decide
theorem test_fetch_top_v108_v110_v112 :
    stepFails (code 254 [0x82, 0x00]) .outOfBoundsAddress 254 = true ∧
      stepFails (code 255 [0x47]) .outOfBoundsAddress 255 = true ∧
      stepFails (code 256 []) .outOfBoundsAddress 256 = true := by decide
theorem test_fetch_fits_v109 :
    let s := code 253 [0x82, 0x00, 0x09]
    stepsTo s (goto 256 (put 0 9 s)) = true := by decide

/-! Host actions (V120 to V126) and the host's fetch word. -/

theorem test_reset_v120 :
    hostAct .reset (failing .unknownOpcode 5 (code 5 [0xFF])) = some State.reset ∧
      actionEffect .reset (code 5 [0xFF]) = State.reset := ⟨rfl, rfl⟩
/-- 00_scope R11, D26: no move while the core runs; no image after a HLT. -/
theorem test_host_moves :
    hostAct .reset (code 5 [0xFF]) = none ∧ hostAct .start (code 5 [0xFF]) = none ∧
      ({ goto 1 State.reset with run := .stopped }).load [0x01] = goto 1 State.reset := by decide
theorem test_load_v121 :
    State.reset.load [0x82, 0x00, 0x08, 0x47, 0x00, 0x01] =
      { State.reset with mem := [(0, 0x82), (2, 0x08), (3, 0x47), (5, 0x01)] } := by decide
theorem test_start_v122_v123 :
    State.reset.start = { State.reset with run := .running } ∧
      (failing .unknownOpcode 5 State.reset).start = failing .unknownOpcode 5 State.reset := by decide
theorem test_start_after_hlt_v124 :
    stepFails (State.start { goto 6 (code 0 [0x82, 0x00, 0x08, 0x47, 0x00, 0x01]) with run := .stopped }) .unknownOpcode 6 = true := by
  decide
theorem test_stopped_v125 : stepsTo State.reset State.reset = true := by decide
theorem test_load_v126 : State.reset.load (List.replicate 257 1) = State.reset :=
  load_of_not (.inr (by rw [List.length_replicate]; decide))
theorem test_with_fetch_word :
    stepsTo (State.reset.withFetchWord 24 0xAB0382) (goto 3 (put 3 0xAB (State.reset.withFetchWord 24 0xAB0382))) = true := by
  decide

/-! Witnesses: for every obligation with hypotheses, states and operands that meet them, clause by clause, at the boundaries. -/

theorem exec_hlt_reset : exec .hlt State.reset = .next (goto 1 State.reset) := by rfl

theorem witness_LdiLoadsImmediate :
    operandNames 7 7 ∧ 7 < (8 : Byte).toNat ∧ (code 254 [0x82]).findsOpcode 0x82 ∧ (code 255 [0x82]).findsOpcode 0x82 ∧
      254 ≤ (code 254 [0x82]).pc := ⟨rfl, by decide, ⟨rfl, by decide, rfl⟩, ⟨rfl, by decide, rfl⟩, by decide⟩

theorem witness_PrnAppendsRegisterToOutput :
    operandNames 7 7 ∧ 7 < (8 : Byte).toNat ∧ (code 255 [0x47]).findsOpcode 0x47 ∧ 255 ≤ (code 255 [0x47]).pc :=
  ⟨rfl, by decide, ⟨rfl, by decide, rfl⟩, by decide⟩

theorem witness_PushStoresRegisterBelowTop : operandNames 7 7 ∧ operandNames 0 0 ∧ 7 < (8 : Byte).toNat := ⟨rfl, rfl, by decide⟩

theorem witness_PopLoadsTopOfStack :
    (operandNames 6 6 ∧ (6 : RegIdx) ≠ spIdx) ∧ operandNames 7 spIdx ∧ 7 < (8 : Byte).toNat := ⟨⟨rfl, by decide⟩, rfl, by decide⟩

/-- V10 with the scenario S8: push `R0`, then pop into `R1`, with `SP` wrapping at 0. -/
def pushed : State := goto 2 (put 7 255 (cell 255 90 (put 0 90 (put 7 0 (code 0 [0x45, 0x00])))))

theorem witness_PopRestoresWhatPushStored :
    operandNames 0 0 ∧ operandNames 1 1 ∧ (0 : RegIdx) ≠ spIdx ∧ (1 : RegIdx) ≠ spIdx ∧
      exec (.push 0) (put 0 90 (put 7 0 (code 0 [0x45, 0x00]))) = .next pushed ∧ (put 0 99 pushed).sp = pushed.sp ∧
      (put 0 99 pushed).mem.peek (put 0 99 pushed).sp.toNat = pushed.mem.peek pushed.sp.toNat :=
  ⟨rfl, rfl, by decide, by decide, rfl, rfl, rfl⟩

theorem witness_HltStopsPastItself :
    (code 255 [0x01]).findsOpcode 0x01 ∧
      (code 255 [0x01]).err = none ∧ step (code 255 [0x01]) = .next { goto 256 (code 255 [0x01]) with run := .stopped } :=
  ⟨⟨rfl, by decide, rfl⟩, rfl, rfl⟩

theorem witness_JmpSetsPcFromRegister :
    operandNames 7 7 ∧ 7 < (8 : Byte).toNat ∧ (code 255 [0x54]).findsOpcode 0x54 := ⟨rfl, by decide, ⟨rfl, by decide, rfl⟩⟩

theorem witness_JeqJumpsWhenEqual :
    (flags 0b001 State.reset).flagE = true ∧ State.reset.flagE = false ∧ operandNames 7 7 ∧ 7 < (8 : Byte).toNat ∧
      (code 255 [0x55]).findsOpcode 0x55 := ⟨rfl, rfl, rfl, by decide, ⟨rfl, by decide, rfl⟩⟩

theorem witness_JneJumpsWhenNotEqual :
    (flags 0b001 State.reset).flagE = true ∧ (flags 0b100 State.reset).flagE = false ∧ operandNames 7 7 ∧
      7 < (8 : Byte).toNat ∧ (code 255 [0x56]).findsOpcode 0x56 := ⟨rfl, rfl, rfl, by decide, ⟨rfl, by decide, rfl⟩⟩

theorem witness_CallPushesReturnAddress :
    operandNames 7 7 ∧ (code 253 [0x50, 0x07]).pc + 2 ≤ 255 ∧ 7 < (8 : Byte).toNat ∧ 254 ≤ (code 254 [0x50, 0x00]).pc :=
  ⟨rfl, by decide, by decide, by decide⟩

theorem witness_RetPopsProgramCounter : (code 255 [0x11]).findsOpcode 0x11 := ⟨rfl, by decide, rfl⟩

/-- V37: CALL at 253. -/
def called : State := goto 20 (put 7 243 (cell 243 255 (put 0 20 (code 253 [0x50, 0x00]))))

theorem witness_RetReturnsPastCall :
    operandNames 0 0 ∧ (put 0 20 (code 253 [0x50, 0x00])).pc + 2 ≤ 255 ∧
      exec (.call 0) (put 0 20 (code 253 [0x50, 0x00])) = .next called ∧ (put 0 1 called).sp = called.sp ∧
      (put 0 1 called).mem.peek (put 0 1 called).sp.toNat = called.mem.peek called.sp.toNat :=
  ⟨rfl, by decide, rfl, rfl, rfl⟩

theorem witness_AddAndMulWrapModulo256 : operandNames 0 0 ∧ operandNames 7 7 := ⟨rfl, rfl⟩

theorem witness_ModLeavesRemainder : operandNames 0 0 ∧ operandNames 7 7 ∧ State.reset.reg 7 ≠ 0#8 := ⟨rfl, rfl, by decide⟩

theorem witness_BitwiseOperationsActBitByBit : operandNames 7 7 ∧ operandNames 0 0 := ⟨rfl, rfl⟩

theorem witness_NotComplementsRegister :
    operandNames 7 7 ∧ 7 < (8 : Byte).toNat ∧ (code 255 [0x69]).findsOpcode 0x69 := ⟨rfl, by decide, ⟨rfl, by decide, rfl⟩⟩

theorem witness_ShiftsUseTheWholeCount :
    operandNames 0 0 ∧ operandNames 1 1 ∧ 8 ≤ ((put 1 8 State.reset).reg 1).toNat := ⟨rfl, rfl, by decide⟩

theorem witness_CmpSetsFlagsByUnsignedOrder :
    operandNames 0 0 ∧ operandNames 7 7 ∧ (7 < (8 : Byte).toNat ∨ 7 < (0 : Byte).toNat) ∧
      (code 254 [0xA7]).findsOpcode 0xA7 ∧ (code 255 [0xA7]).findsOpcode 0xA7 :=
  ⟨rfl, rfl, by decide, ⟨rfl, by decide, rfl⟩, ⟨rfl, by decide, rfl⟩⟩

theorem witness_CmpFlagValuesAtDecidedPositions :
    operandNames 0 0 ∧ operandNames 7 7 ∧ exec (.cmp 0 7) State.reset = .next (goto 3 (flags 0b100 State.reset)) ∧
      exec (.cmp 7 0) State.reset = .next (goto 3 (flags 0b010 State.reset)) ∧
      exec (.cmp 0 0) State.reset = .next (goto 3 (flags 0b001 State.reset)) := ⟨rfl, rfl, rfl, rfl, rfl⟩

theorem witness_AluSubAndDivWithoutOpcode :
    operandNames 0 0 ∧ operandNames 7 7 ∧ State.reset.reg 7 ≠ 0#8 ∧ State.reset.reg 0 = 0#8 ∧
      (7 < (8 : Byte).toNat ∨ 7 < (0 : Byte).toNat) ∧ (7 < (0 : Byte).toNat ∨ 7 < (8 : Byte).toNat) :=
  ⟨rfl, rfl, by decide, rfl, by decide, by decide⟩

theorem witness_MemoryAccessesStayInRange :
    State.reset.memRead 255 = .ok 0 ∧ State.reset.memRead 256 = .error .outOfBoundsAddress ∧
      State.reset.memWrite 255 9 = .ok { State.reset with mem := [(255, 9)] } ∧
      State.reset.memWrite 256 9 = .error .outOfBoundsAddress := ⟨rfl, rfl, rfl, rfl⟩

/-- Program P5 of 95_test_vectors at its PUSH, with `R0` holding `v`. -/
def overwriting (v : Byte) : State := put 0 v (put 7 9 (code 6 [0x45, 0x00]))

theorem witness_PushedByteIsFetchedNext_halts :
    (overwriting 0x01).run = .running ∧ (overwriting 0x01).holds (.push 0) ∧ operandNames 0 0 ∧
      (overwriting 0x01).decSp.sp.toNat = (overwriting 0x01).pc + 2 ∧ (overwriting 0x01).reg 0 = 0x01#8 :=
  ⟨rfl, ⟨by decide, by decide⟩, rfl, rfl, rfl⟩
theorem witness_PushedByteIsFetchedNext_any_byte :
    let s := overwriting 0x82
    let r := put 7 9 (code 6 [0x45, 0x07])
    0x82#8 = (if (0 : RegIdx) = spIdx then s.decSp.sp else s.reg 0) ∧
      r.run = .running ∧ r.holds (.push 7) ∧ operandNames 7 7 ∧ r.decSp.sp.toNat = r.pc + 2 ∧
      0x08#8 = (if (7 : RegIdx) = spIdx then r.decSp.sp else r.reg 7) :=
  ⟨rfl, rfl, ⟨by decide, by decide⟩, rfl, rfl, rfl⟩
theorem witness_PushedByteIsFetchedNext_call :
    let s := put 0 243 (code 253 [0x50, 0x00])
    let r := code 253 [0x50, 0x07]
    (s.run = .running ∧ s.holds (.call 0) ∧ operandNames 0 0 ∧ s.pc + 2 ≤ 255 ∧ s.reg 0 = s.decSp.sp) ∧
      r.run = .running ∧ r.holds (.call 7) ∧ operandNames 7 spIdx ∧ r.pc + 2 ≤ 255 :=
  ⟨⟨rfl, ⟨by decide, by decide⟩, rfl, by decide, rfl⟩, rfl, ⟨by decide, by decide⟩, rfl, by decide⟩
theorem witness_PushedByteIsFetchedNext_raises :
    (overwriting 0xFF).run = .running ∧ (overwriting 0xFF).holds (.push 0) ∧ operandNames 0 0 ∧
      (overwriting 0xFF).decSp.sp.toNat = (overwriting 0xFF).pc + 2 ∧ dispatch ((overwriting 0xFF).reg 0) = none :=
  ⟨rfl, ⟨by decide, by decide⟩, rfl, rfl, rfl⟩

theorem witness_OnlyDestinationRegistersChange : exec .hlt State.reset = .next (goto 1 State.reset) := exec_hlt_reset

theorem witness_OnlyPushAndCallStore :
    exec .hlt State.reset = .next (goto 1 State.reset) ∧ (∀ a, Instr.hlt ≠ .push a) ∧ (∀ a, Instr.hlt ≠ .call a) ∧
      exec (.push 0) (put 0 90 (put 7 0 (code 0 [0x45, 0x00]))) = .next pushed ∧
      0 ≠ (put 0 90 (put 7 0 (code 0 [0x45, 0x00]))).decSp.sp.toNat ∧
      exec (.call 0) (put 0 20 (code 253 [0x50, 0x00])) = .next called ∧
      0 ≠ (put 0 20 (code 253 [0x50, 0x00])).decSp.sp.toNat :=
  ⟨rfl, nofun, nofun, rfl, by decide, rfl, by decide⟩

theorem witness_OnlyCmpWritesAndOnlyJeqJneReadFlags :
    exec .hlt State.reset = .next (goto 1 State.reset) ∧ (∀ a b, Instr.hlt ≠ .cmp a b) ∧ operandNames 0 0 ∧ operandNames 7 7 ∧
      (∀ a b, Instr.jeq 7 ≠ .cmp a b) ∧ (State.reset.setFl 0b110).flagE = State.reset.flagE ∧
      step (code 0 [0x00]) = .next (failing .unknownOpcode 0 (code 0 [0x00])) ∧
      (failing .unknownOpcode 0 (code 0 [0x00])).err ≠ (code 0 [0x00]).err :=
  ⟨rfl, nofun, rfl, rfl, nofun, rfl, rfl, by decide⟩

theorem witness_OutputAndRunStateFrame :
    exec .hlt State.reset = .next (goto 1 State.reset) ∧ (∀ a, Instr.hlt ≠ .prn a) ∧
      exec (.jmp 7) State.reset = .next (goto 244 State.reset) ∧ Instr.jmp 7 ≠ .hlt := ⟨rfl, nofun, rfl, nofun⟩

theorem witness_ProgramCounterAfterInstruction :
    exec .hlt State.reset = .next (goto 1 State.reset) ∧ Instr.hlt.opcode.byte.getLsbD 4 = false ∧
      exec (.jeq 8) (goto 254 State.reset) = .next (goto 256 State.reset) ∧ (Instr.jeq 8).opcode.byte.getLsbD 4 = true ∧
      exec (.jmp 7) State.reset = .next (goto 244 State.reset) ∧ (Instr.jmp 7).opcode.byte.getLsbD 4 = true :=
  ⟨rfl, rfl, rfl, rfl, rfl, rfl⟩

theorem witness_RaisingStepChangesOnlyErrAndRun :
    (code 256 []).run = .running ∧ (code 256 []).err = none ∧ (code 256 []).pc ≤ 256 ∧
      step (code 256 []) = .next (failing .outOfBoundsAddress 256 (code 256 [])) ∧
      (failing .outOfBoundsAddress 256 (code 256 [])).err ≠ none := ⟨rfl, rfl, by decide, rfl, by decide⟩

/-- The third clause: only a state that already holds the report, which the invariant leaves to a stopped core. -/
theorem witness_UnsupportedOperationOnlyFromUnknownTag :
    let s := failing .unsupportedOperation 3 (goto 3 State.reset)
    step s = .next s ∧ s.err = some ⟨.unsupportedOperation, 3⟩ := ⟨rfl, rfl⟩

theorem witness_DivisionByZeroExactlyFromZeroDivisor :
    State.reset.err = none ∧ exec (.mod 7 0) State.reset = .next (failing .divisionByZero 0 State.reset) ∧
      operandNames 7 7 ∧ operandNames 0 0 ∧ State.reset.reg 0 = 0#8 := ⟨rfl, rfl, rfl, rfl, rfl⟩

theorem witness_UnknownOpcodesRaise :
    (code 255 [0xFF]).findsOpcode 0xFF ∧ (code 0 []).findsOpcode 0x00 ∧ (code 0 []).err = none ∧
      step (code 0 []) = .next (failing .unknownOpcode 0 (code 0 [])) :=
  ⟨⟨rfl, by decide, rfl⟩, ⟨rfl, by decide, rfl⟩, rfl, rfl⟩

/-- One state for each site of R224, and one (V37) at none of them. -/
theorem witness_OutOfBoundsAddressExactlyAtItsSites :
    step (code 256 []) = .next (failing .outOfBoundsAddress 256 (code 256 [])) ∧
    step (code 254 [0x82]) = .next (failing .outOfBoundsAddress 254 (code 254 [0x82])) ∧
    step (code 0 [0x47, 0xFF]) = .next (failing .outOfBoundsAddress 0 (code 0 [0x47, 0xFF])) ∧
    step (code 254 [0x50, 0x00]) = .next (failing .outOfBoundsAddress 254 (code 254 [0x50, 0x00])) ∧
    step (put 0 20 (code 253 [0x50, 0x00])) = .next called := ⟨rfl, rfl, rfl, rfl, rfl⟩

theorem witness_AccessedOperandAboveSevenRaises :
    8 ∈ accessedOperands (.mod 0 8) State.reset ∧ 8 ∈ accessedOperands (.jne 8) State.reset ∧ 7 < (8 : Byte).toNat := by decide

theorem witness_WellFormedInstructionsRaiseOnlyInCallAndMod :
    (Instr.mod 7 0).wellFormed = true ∧ exec (.mod 7 0) State.reset = .next (failing .divisionByZero 0 State.reset) ∧
      (Instr.call 7).wellFormed = true ∧
      exec (.call 7) (code 254 []) = .next (failing .outOfBoundsAddress 254 (code 254 [])) := ⟨rfl, rfl, rfl, rfl⟩

theorem witness_CauseCodesOnTheStatusPort : State.reset.err = none := rfl

theorem witness_LoopStopsOnlyByHltOrCondition :
    State.reset.run = .stopped ∧ (code 0 [0x01]).run = .running ∧ (code 0 [0x01]).err = none := ⟨rfl, rfl, rfl⟩

theorem witness_StepExecutesTheInstructionAtPc :
    (code 253 [0x82, 0x00, 0x09]).run = .running ∧ (code 253 [0x82, 0x00, 0x09]).holds (.ldi 0 9) ∧
      decode ((code 253 [0x82, 0x00, 0x09]).mem.codeBytes 253 3) = .ok (.ldi 0 9, []) :=
  ⟨rfl, ⟨by decide, by decide⟩, rfl⟩

theorem witness_FetchFaultsNearTheTop :
    (code 256 []).run = .running ∧ 255 < (code 256 []).pc ∧ (code 255 [0x47]).findsOpcode 0x47 ∧
      dispatch 0x47 = some .prn ∧ 255 < (code 255 [0x47]).pc + Opcode.prn.operandCount ∧
      (code 255 [0xFF]).findsOpcode 0xFF ∧ dispatch 0xFF = none :=
  ⟨rfl, by decide, ⟨rfl, by decide, rfl⟩, rfl, by decide, ⟨rfl, by decide, rfl⟩, rfl⟩

theorem witness_StepKeepsInvariant :
    Inv (code 0 [0x45, 0x07]) ∧ step (code 0 [0x45, 0x07]) = .next (goto 2 (put 7 243 (cell 243 243 (code 0 [0x45, 0x07])))) :=
  ⟨⟨rfl, by decide, .inl rfl, nofun⟩, rfl⟩

theorem witness_HostActionsKeepInvariant : Inv (failing .unknownOpcode 255 { code 255 [0xFF] with run := .stopped }) :=
  ⟨rfl, by decide, .inl rfl, fun e h => by cases h; exact ⟨rfl, rfl⟩⟩

theorem witness_DecodeOfEncodeIsTheInstruction : (goto 253 State.reset).pc + (encode (.ldi 8 255)).length ≤ 256 := by decide

theorem witness_DecodeReadsOnlyEncodings :
    decode [0x82, 8, 5, 0x01] = .ok (.ldi 8 5, [0x01]) ∧ decode [0xC0] = .error (.unknownOpcode 0xC0) ∧
      decode [0x82, 0] = .error (.missingOperand .ldi) := ⟨rfl, rfl, rfl⟩

theorem witness_HostMovesOnlyWhileStopped :
    (code 0 [0x01]).run = .running ∧ State.reset.run = .stopped ∧ hostAct .reset State.reset = some State.reset ∧
      hostAct .start (goto 1 State.reset) = some { goto 1 State.reset with run := .running } ∧ HostAction.start ≠ .reset ∧
      ¬ (goto 1 State.reset).awaitsImage ∧ State.reset.awaitsImage ∧ hostAct (.load [0]) State.reset = some State.reset ∧
      step (code 255 [0x01]) = .next { goto 256 (code 255 [0x01]) with run := .stopped } :=
  ⟨rfl, rfl, rfl, rfl, nofun, by decide, rfl, rfl, rfl⟩

theorem witness_StartRunsAStoppedCore :
    State.reset.run = .stopped ∧ State.reset.err = none ∧ (code 0 []).run = .running ∧
      (failing .unknownOpcode 0 State.reset).err ≠ none := ⟨rfl, rfl, rfl, by decide⟩

theorem witness_LoadWritesTheImageFromZero :
    State.reset.awaitsImage ∧ (List.replicate 256 (1 : Byte)).length ≤ 256 ∧ 256 < (List.replicate 257 (1 : Byte)).length ∧
      ¬ (code 0 []).awaitsImage := ⟨rfl, by rw [List.length_replicate], by rw [List.length_replicate]; decide, by decide⟩

end Sys2Proof.Tests
end

section
/-! SUPPORT. The flags `FL` (10_state R30): who writes them, and what reads them. -/

namespace Sys2Proof.Machine

/-! Who writes `FL`. -/

@[simp] theorem loopAdvance_fl (o : Opcode) (s : State) : (loopAdvance o s).fl = s.fl := by
  obtain ⟨p, hp⟩ := loopAdvance_eq_setPc o s
  rw [hp, State.setPc_fl]

@[simp] theorem loopAdvance_err (o : Opcode) (s : State) : (loopAdvance o s).err = s.err := by
  obtain ⟨p, hp⟩ := loopAdvance_eq_setPc o s
  rw [hp, State.setPc_err]

/-- A handler that completes writes no report, and CMP's is the only one that writes `FL`. -/
theorem handler_ok_err_fl {i : Instr} {s u : State} (h : handler i s = .ok u) :
    u.err = s.err ∧ ((∃ a b, i = .cmp a b) ∨ u.fl = s.fl) := by
  rcases handler_ok_cases h with ⟨-, _, _, -, rfl⟩ | ⟨_, _, -, rfl⟩ | ⟨-, rfl⟩ | ⟨a, b, _, _, hcmp, rfl⟩ | ⟨_, _, -, rfl⟩ |
    ⟨_, _, _, -, -, rfl⟩ | ⟨_, _, _, -, rfl, -⟩ | ⟨-, _, rfl, -⟩ | ⟨-, _, rfl, -⟩
  case inr.inr.inr.inl => exact ⟨rfl, .inl ⟨a, b, hcmp⟩⟩
  all_goals exact ⟨rfl, .inr rfl⟩

theorem exec_fl_of_ne_cmp {i : Instr} {s t : State} (h : exec i s = .next t) (hi : ∀ a b, i ≠ .cmp a b) : t.fl = s.fl := by
  rcases exec_next h with ⟨u, hu, rfl⟩ | ⟨c, -, rfl⟩
  · rw [loopAdvance_fl]
    exact (handler_ok_err_fl hu).2.resolve_left fun ⟨a, b, hcmp⟩ => hi a b hcmp
  · rfl

/-- An instruction that changes the report has raised, and a raise leaves `FL` (60 R229). -/
theorem exec_fl_of_err_ne {i : Instr} {s t : State} (h : exec i s = .next t) (he : t.err ≠ s.err) : t.fl = s.fl := by
  rcases exec_next h with ⟨u, hu, rfl⟩ | ⟨c, -, rfl⟩
  · exact absurd ((loopAdvance_err _ u).trans (handler_ok_err_fl hu).1) he
  · rfl

theorem step_fl_of_err_ne {s t : State} (h : step s = .next t) (he : t.err ≠ s.err) : t.fl = s.fl := by
  rcases step_cases h with ⟨-, rfl⟩ | ⟨-, i, -, -, -, hx⟩ | ⟨-, c, -, -, rfl⟩
  · rfl
  · exact exec_fl_of_err_ne hx he
  · rfl

/-! What CMP writes. -/

/-- Flags that a comparison computed have exactly one bit set (45 R203). -/
theorem count_flags_of_fl_eq_compareFlags {t : State} {x y : Byte} (h : t.fl = compareFlags x y) :
    [t.flagE, t.flagG, t.flagL].count true = 1 := by
  unfold State.flagE State.flagG State.flagL
  rw [h, compareFlags]
  split_ifs <;> decide

/-- CMP's result does not depend on the flags it finds. -/
theorem exec_cmp_setFl {a b : Byte} (ha : a.toNat < 8) (hb : b.toNat < 8) (s : State) (f : BitVec 3) :
    exec (.cmp a b) (s.setFl f) = exec (.cmp a b) s := by
  rw [exec_cmp s ha hb, exec_cmp (s.setFl f) ha hb]
  rfl

/-! What reads `FL`: a handler that does not read it does the same with other flags, which is to say that it commutes with
setting them. -/

/-- What holds behind each register holds behind a register operand: with other flags, the same raise or the same result. -/
theorem withReg_setFl {k : Byte} {f : BitVec 3} {g g' : RegIdx → Except Cause State}
    (h : ∀ j, g' j = (g j).map (·.setFl f)) : withReg k g' = (withReg k g).map (·.setFl f) := by
  by_cases hk : k.toNat < 8
  · rw [withReg_ok hk, withReg_ok hk, h]
  · rw [withReg_error hk, withReg_error hk]
    rfl

section
variable (a b : Byte) (s : State) (f : BitVec 3)

theorem aluBinary_setFl (op : Nat → Nat → Except Cause Int) :
    aluBinary op a b (s.setFl f) = (aluBinary op a b s).map (·.setFl f) :=
  withReg_setFl fun i => withReg_setFl fun j => by
    rw [State.setFl_reg, State.setFl_reg]
    cases op (s.reg i).toNat (s.reg j).toNat <;> rfl

theorem handlePop_setFl : handlePop a (s.setFl f) = (handlePop a s).map (·.setFl f) :=
  withReg_setFl fun i => by
    rw [memRead_byte, memRead_byte]
    rfl

theorem handlePush_setFl : handlePush a (s.setFl f) = (handlePush a s).map (·.setFl f) :=
  withReg_setFl fun i => by
    simp only [memWrite_byte]
    rfl

theorem handleCall_setFl : handleCall a (s.setFl f) = (handleCall a s).map (·.setFl f) :=
  withReg_setFl fun i => by
    rw [State.setFl_pc]
    split
    · rfl
    · simp only [memWrite_byte]
      rfl

theorem handleRet_setFl : handleRet (s.setFl f) = (handleRet s).map (·.setFl f) := by
  rw [handleRet_ok, handleRet_ok]
  rfl

theorem jumpTo_setFl : jumpTo a (s.setFl f) = (jumpTo a s).map (·.setFl f) := withReg_setFl fun _ => rfl

/-- A conditional jump reads `FL` through its condition only. -/
theorem jumpIf_setFl (taken : Bool) : jumpIf taken a (s.setFl f) = (jumpIf taken a s).map (·.setFl f) := by
  cases taken with
  | true => exact jumpTo_setFl a s f
  | false => rfl

end

/-- Every handler but CMP's commutes with setting the flags; JEQ's and JNE's do where `FL.E` is kept. -/
theorem handler_setFl {i : Instr} {s : State} {f : BitVec 3} (hi : ∀ a b, i ≠ .cmp a b)
    (hE : (∃ a, i = .jeq a ∨ i = .jne a) → (s.setFl f).flagE = s.flagE) :
    handler i (s.setFl f) = (handler i s).map (·.setFl f) := by
  cases i with
  | ldi a b => exact withReg_setFl fun _ => rfl
  | prn a => exact withReg_setFl fun _ => rfl
  | hlt => rfl
  | mul a b => exact aluBinary_setFl a b s f aluMul
  | add a b => exact aluBinary_setFl a b s f aluAdd
  | cmp a b => exact absurd rfl (hi a b)
  | and a b => exact aluBinary_setFl a b s f aluAnd
  | or a b => exact aluBinary_setFl a b s f aluOr
  | xor a b => exact aluBinary_setFl a b s f aluXor
  | not a => exact withReg_setFl fun _ => rfl
  | shl a b => exact aluBinary_setFl a b s f aluShl
  | shr a b => exact aluBinary_setFl a b s f aluShr
  | mod a b => exact aluBinary_setFl a b s f aluMod
  | pop a => exact handlePop_setFl a s f
  | push a => exact handlePush_setFl a s f
  | call a => exact handleCall_setFl a s f
  | ret => exact handleRet_setFl s f
  | jmp a => exact jumpTo_setFl a s f
  | jeq a =>
    rw [handler, handler, hE ⟨a, .inl rfl⟩]
    exact jumpIf_setFl a s f _
  | jne a =>
    rw [handler, handler, hE ⟨a, .inr rfl⟩]
    exact jumpIf_setFl a s f _

theorem loopAdvance_setFl (o : Opcode) (s : State) (f : BitVec 3) :
    loopAdvance o (s.setFl f) = (loopAdvance o s).setFl f := by
  unfold loopAdvance
  split <;> rfl

/-- The end of a step reads no flags: setting them before the step and in the handler's result sets them in the outcome. -/
theorem finish_setFl (o : Opcode) (s : State) (f : BitVec 3) (h : Except Cause State) :
    ∃ t, finish o s h = .next t ∧ finish o (s.setFl f) (h.map (·.setFl f)) = .next (t.setFl f) := by
  cases h with
  | ok u => exact ⟨loopAdvance o u, rfl, congrArg Host.Outcome.next (loopAdvance_setFl o u f)⟩
  | error c => exact ⟨s.raise c, rfl, rfl⟩

/-- Every instruction but CMP commutes with setting the flags; JEQ and JNE do where `FL.E` is kept. -/
theorem exec_setFl {i : Instr} {s : State} {f : BitVec 3} (hi : ∀ a b, i ≠ .cmp a b)
    (hE : (∃ a, i = .jeq a ∨ i = .jne a) → (s.setFl f).flagE = s.flagE) :
    ∃ t, exec i s = .next t ∧ exec i (s.setFl f) = .next (t.setFl f) := by
  rw [exec_eq_finish, exec_eq_finish, handler_setFl hi hE]
  exact finish_setFl i.opcode s f (handler i s)

/-- Settles O26: the frame of `FL` from the inversion of a completed handler, and independence of `FL` because every handler but
CMP's commutes with setting it. -/
theorem onlyCmpWritesAndOnlyJeqJneReadFlags : Obligations.OnlyCmpWritesAndOnlyJeqJneReadFlags := by
  refine ⟨fun i s t => exec_fl_of_ne_cmp, ?_, fun i s f => exec_setFl, fun s t => step_fl_of_err_ne⟩
  intro a b i j s f hi hj
  have ha : a.toNat < 8 := hi ▸ i.isLt
  have hb : b.toNat < 8 := hj ▸ j.isLt
  have hx := exec_cmp s ha hb
  exact ⟨_, hx, (exec_cmp_setFl ha hb s f).trans hx, count_flags_of_fl_eq_compareFlags rfl⟩

end Sys2Proof.Machine
end

section
/-! SUPPORT. Data accesses at an arbitrary address (20_memory R51, R52): an access inside the memory acts on its one cell, any
other raises. -/

namespace Sys2Proof.Machine

section
variable (s : State) {addr : Nat}

theorem memRead_ok (h : addr ≤ 255) : s.memRead addr = .ok (s.mem.peek addr) := if_pos (Nat.lt_succ_of_le h)

theorem memRead_error (h : 255 < addr) : s.memRead addr = .error .outOfBoundsAddress := if_neg (Nat.not_lt_of_le h)

theorem memWrite_ok (v : Byte) (h : addr ≤ 255) : s.memWrite addr v = .ok (s.setCell addr v) := if_pos (Nat.lt_succ_of_le h)

theorem memWrite_error (v : Byte) (h : 255 < addr) : s.memWrite addr v = .error .outOfBoundsAddress :=
  if_neg (Nat.not_lt_of_le h)

end

/-- Settles O22: an access in range reads or sets its cell, and what setting a cell changes is said by the laws of `setCell`
and `poke`. -/
theorem memoryAccessesStayInRange : Obligations.MemoryAccessesStayInRange := by
  refine ⟨fun s addr => memRead_ok s, fun s addr => memRead_error s, ?_, fun s addr v => memWrite_error s v⟩
  intro s addr v h
  refine ⟨s.setCell addr v, memWrite_ok s v h, ?_, ?_, s.setCell_regs addr v, s.setCell_pc addr v, s.setCell_fl addr v,
    s.setCell_run addr v, s.setCell_err addr v, s.setCell_out addr v⟩
  · rw [State.setCell_mem, Memory.peek_poke_same]
  · intro other hne
    rw [State.setCell_mem, Memory.peek_poke_ne _ v hne.symm]

end Sys2Proof.Machine
end

section
/-! SUPPORT. Unknown opcodes (30_encoding R87, 60 R223): which bytes they are, and that nothing but fetching one reports
`UnknownOpcode`. -/

namespace Sys2Proof

theorem mem_dispatchTable (o : Opcode) : o ∈ dispatchTable := by cases o <;> decide

/-- The lookup finds a row exactly for the rows' opcode bytes. -/
theorem mem_map_byte_iff {op : Byte} : op ∈ dispatchTable.map Opcode.byte ↔ (dispatch op).isSome = true := by
  rw [List.mem_map, Option.isSome_iff_exists]
  constructor
  · rintro ⟨o, -, rfl⟩
    exact ⟨o, dispatch_byte o⟩
  · rintro ⟨o, h⟩
    exact ⟨o, mem_dispatchTable o, byte_of_dispatch h⟩

/-- The numbers of the bytes with a row are those of the twenty rows, each once. -/
theorem filter_dispatch_isSome_perm :
    ((List.range 256).filter fun n => (dispatch (BitVec.ofNat 8 n)).isSome).Perm
      (dispatchTable.map fun o => o.byte.toNat) := by
  refine (List.perm_ext_iff_of_nodup (List.nodup_range.filter _) (by decide)).2 fun n => ?_
  rw [List.mem_filter, List.mem_range, List.mem_map, Option.isSome_iff_exists]
  constructor
  · rintro ⟨hn, o, ho⟩
    exact ⟨o, mem_dispatchTable o, by rw [byte_of_dispatch ho, BitVec.toNat_ofNat, Nat.mod_eq_of_lt hn]⟩
  · rintro ⟨o, -, rfl⟩
    exact ⟨o.byte.isLt, o, by rw [BitVec.ofNat_toNat, BitVec.setWidth_eq, dispatch_byte]⟩

/-- Twenty of the 256 bytes have a row, so the other 236 have none (30_encoding R87). -/
theorem length_filter_dispatch_isNone :
    ((List.range 256).filter fun n => (dispatch (BitVec.ofNat 8 n)).isNone).length = 236 := by
  have known : ((List.range 256).filter fun n => (dispatch (BitVec.ofNat 8 n)).isSome).length = 20 :=
    filter_dispatch_isSome_perm.length_eq
  have total := List.length_eq_length_filter_add (l := List.range 256) fun n => (dispatch (BitVec.ofNat 8 n)).isSome
  simp only [Option.not_isSome, known, List.length_range] at total
  omega

end Sys2Proof

namespace Sys2Proof.Machine

/-- Fetching finds an unknown opcode only where the byte at `PC` has no row. -/
theorem dispatch_eq_none_of_fetch {s : State} (h : fetch s = .error .unknownOpcode) : dispatch (s.mem.peek s.pc) = none := by
  rcases fetch_cases s with ⟨-, hf⟩ | ⟨-, hd, -⟩ | ⟨-, -, hf⟩ | ⟨-, i, hf, -, -⟩
  · cases hf.symm.trans h
  · exact hd
  · cases hf.symm.trans h
  · cases hf.symm.trans h

/-- No handler raises `UnknownOpcode`. -/
theorem handler_ne_unknownOpcode (i : Instr) (s : State) : handler i s ≠ .error .unknownOpcode := by
  intro h
  rcases handler_error_cases h with ⟨hc, -⟩ | ⟨hc, -⟩ | ⟨hc, -⟩ <;> cases hc

/-- An instruction does not report `UnknownOpcode`: such a report was there before. -/
theorem exec_err_of_unknownOpcode {i : Instr} {s t : State} {p : Nat} (h : exec i s = .next t)
    (he : t.err = some ⟨.unknownOpcode, p⟩) : t.err = s.err := by
  rcases exec_next h with ⟨u, hu, rfl⟩ | ⟨c, hc, rfl⟩
  · exact (loopAdvance_err _ u).trans (handler_ok_err_fl hu).1
  · cases he
    exact absurd hc (handler_ne_unknownOpcode i s)

/-- A step that newly reports `UnknownOpcode` found at `PC` a byte without a row, and reports that `PC`. -/
theorem step_reports_unknownOpcode {s t : State} {p : Nat} (hs : s.err = none) (h : step s = .next t)
    (he : t.err = some ⟨.unknownOpcode, p⟩) : p = s.pc ∧ dispatch (s.mem.peek s.pc) = none := by
  rcases step_cases h with ⟨-, rfl⟩ | ⟨-, i, -, -, -, hx⟩ | ⟨-, c, hf, -, rfl⟩
  · cases hs.symm.trans he
  · cases hs.symm.trans ((exec_err_of_unknownOpcode hx he).symm.trans he)
  · cases he
    exact ⟨rfl, dispatch_eq_none_of_fetch hf⟩

/-- The step that finds a byte without a row raises, whatever follows the byte. -/
theorem step_of_unknown {s : State} {op : Byte} (h : s.findsOpcode op) (hd : dispatch op = none) :
    step s = .next (s.raise .unknownOpcode) := by
  obtain ⟨hr, hp, rfl⟩ := h
  exact step_of_error hr (fetch_unknown hp hd)

/-- Settles O34: the listed bytes are the rows' bytes, so the bytes outside the list are those without a row, which the fetch
refuses and which alone make it report `UnknownOpcode`. -/
theorem unknownOpcodesRaise : Obligations.UnknownOpcodesRaise := by
  unfold Obligations.UnknownOpcodesRaise
  intro table
  have perm : table.Perm (dispatchTable.map Opcode.byte) := by decide
  have known (op : Byte) : op ∈ table ↔ (dispatch op).isSome = true := perm.mem_iff.trans mem_map_byte_iff
  have unknown (op : Byte) : op ∉ table ↔ dispatch op = none := by rw [known, Option.not_isSome_iff_eq_none]
  refine ⟨?_, ?_, known, length_filter_dispatch_isNone, by decide⟩
  · intro s op hop hout
    have ⟨_, _, hbyte⟩ := hop
    exact ⟨s.raise .unknownOpcode, step_of_unknown hop ((unknown op).1 hout), rfl, rfl, hbyte⟩
  · intro s t p _ hs h he
    obtain ⟨hp, hd⟩ := step_reports_unknownOpcode hs h he
    exact ⟨hp, (unknown _).2 hd⟩

end Sys2Proof.Machine
end

section
/-! SUPPORT. The running state `RUN` along a step (40 R110): a step always has a next state, and HLT and raises alone stop the
core. -/

namespace Sys2Proof.Machine

/-! Every step answers a next state: a raise is one too. -/

theorem exec_total (i : Instr) (s : State) : ∃ t, exec i s = .next t := by
  cases h : handler i s with
  | ok u => exact ⟨_, exec_of_ok h⟩
  | error c => exact ⟨_, exec_of_error h⟩

theorem step_total (s : State) : ∃ t, step s = .next t := by
  cases hr : s.run with
  | stopped => exact ⟨s, step_stopped hr⟩
  | running =>
    cases hf : fetch s with
    | ok i => rw [step_of_ok hr hf]; exact exec_total i s
    | error c => exact ⟨_, step_of_error hr hf⟩

/-! What stops the core. -/

@[simp] theorem loopAdvance_run (o : Opcode) (s : State) : (loopAdvance o s).run = s.run := by
  obtain ⟨p, hp⟩ := loopAdvance_eq_setPc o s
  rw [hp, State.setPc_run]

/-- A completed handler other than HLT's leaves `RUN`. -/
theorem handler_ok_run {i : Instr} {s u : State} (h : handler i s = .ok u) (hi : i ≠ .hlt) : u.run = s.run := by
  rcases handler_ok_cases h with ⟨-, _, _, -, rfl⟩ | ⟨_, _, -, rfl⟩ | ⟨hhlt, -⟩ | ⟨_, _, _, _, -, rfl⟩ | ⟨_, _, -, rfl⟩ |
    ⟨_, _, _, -, -, rfl⟩ | ⟨_, _, _, -, rfl, -⟩ | ⟨-, _, rfl, -⟩ | ⟨-, _, rfl, -⟩
  case inr.inr.inl => exact absurd hhlt hi
  all_goals rfl

/-- From a running core without a report, an instruction stops the core exactly when it is HLT or has raised. -/
theorem exec_run_eq_stopped_iff {i : Instr} {s t : State} (hr : s.run = .running) (he : s.err = none)
    (h : exec i s = .next t) : t.run = .stopped ↔ i = .hlt ∨ t.err ≠ none := by
  by_cases hi : i = .hlt
  · subst hi
    rw [exec_hlt] at h
    cases h
    exact iff_of_true rfl (.inl rfl)
  · rcases exec_next h with ⟨u, hu, rfl⟩ | ⟨c, -, rfl⟩
    · have hrun : u.run = .running := (handler_ok_run hu hi).trans hr
      have herr : u.err = none := (handler_ok_err_fl hu).1.trans he
      simp [hi, hrun, herr]
    · exact iff_of_true rfl (.inr nofun)

/-- HLT is the only instruction with opcode byte `01`. -/
theorem opcode_byte_eq_hlt_iff {i : Instr} : i.opcode.byte = 0x01#8 ↔ i = .hlt := by
  cases i <;> simp [Instr.opcode, Opcode.byte]

/-- Where an instruction stands at `PC`, a running core finds the byte `01` exactly when the instruction is HLT. -/
theorem findsOpcode_hlt_iff {i : Instr} {s : State} (hr : s.run = .running) (h : s.holds i) :
    s.findsOpcode 0x01#8 ↔ i = .hlt := by
  obtain ⟨hpc, hbyte⟩ := holds_opcode h
  rw [← opcode_byte_eq_hlt_iff, ← hbyte]
  exact ⟨fun ⟨_, _, hop⟩ => hop, fun hop => ⟨hr, hpc, hop⟩⟩

/-- Settles O39: a step is total, and of its outcomes HLT and the raises, at the fetch or in the instruction, are those that
stop a running core. -/
theorem loopStopsOnlyByHltOrCondition : Obligations.LoopStopsOnlyByHltOrCondition := by
  refine ⟨fun s => step_stopped, fun s hr he => ?_⟩
  obtain ⟨t, ht⟩ := step_total s
  refine ⟨t, ht, ?_⟩
  rcases step_cases ht with ⟨hstop, -⟩ | ⟨-, i, -, hholds, -, hx⟩ | ⟨-, c, -, -, rfl⟩
  · cases hr.symm.trans hstop
  · rw [findsOpcode_hlt_iff hr hholds]
    exact exec_run_eq_stopped_iff hr he hx
  · exact iff_of_true rfl (.inr nofun)

end Sys2Proof.Machine
end

section
/-! SUPPORT. Division by zero (60 R222): MOD alone of the instructions reports it, and a zero divisor makes MOD, and the ALU's
DIV, raise it. -/

namespace Sys2Proof.Machine

/-! Where a report comes from. -/

/-- An instruction that leaves a report where there was none has raised it, at its own `PC`. -/
theorem exec_reports {i : Instr} {s t : State} {c : Cause} {p : Nat} (hs : s.err = none) (h : exec i s = .next t)
    (he : t.err = some ⟨c, p⟩) : handler i s = .error c ∧ p = s.pc := by
  rcases exec_next h with ⟨u, hu, rfl⟩ | ⟨d, hd, rfl⟩
  · rw [loopAdvance_err, (handler_ok_err_fl hu).1, hs] at he
    cases he
  · cases he
    exact ⟨hd, rfl⟩

/-- The only handler that raises `DivisionByZero` is MOD's, and its divisor is zero. -/
theorem mod_of_handler_divisionByZero {i : Instr} {s : State} (h : handler i s = .error .divisionByZero) :
    ∃ (a b : Byte) (ib : RegIdx), i = .mod a b ∧ operandNames b ib ∧ s.reg ib = 0#8 := by
  rcases handler_error_cases h with ⟨hc, -⟩ | ⟨hc, -⟩ | ⟨-, a, b, hi, -, hb, h0⟩
  · cases hc
  · cases hc
  · exact ⟨a, b, ⟨b.toNat, hb⟩, hi, rfl, BitVec.eq_of_toNat_eq h0⟩

/-! What a zero divisor does. -/

/-- The ALU's DIV with valid indices and a zero divisor raises (45 R205, 40 R124). -/
theorem alu_div_zero {a b : Byte} (s : State) (ha : a.toNat < 8) (hb : b.toNat < 8)
    (h0 : (s.reg ⟨b.toNat, hb⟩).toNat = 0) : alu (some .div) a b s = .error .divisionByZero := by
  rw [alu, aluBinary_ok ha hb, aluDiv, if_pos h0]

/-- Settles O33: a new report is one the handler raised, of the handlers only MOD's raises this condition, and what a raise leaves
is a stopped core that differs in the report alone. -/
theorem divisionByZeroExactlyFromZeroDivisor : Obligations.DivisionByZeroExactlyFromZeroDivisor := by
  refine ⟨fun i s t p hs h he => mod_of_handler_divisionByZero (exec_reports hs h he).1, ?_⟩
  intro s a b ia ib hia hib hzero
  have ha : a.toNat < 8 := hia ▸ ia.isLt
  have hb : b.toNat < 8 := hib ▸ ib.isLt
  obtain rfl : ⟨b.toNat, hb⟩ = ib := Fin.ext hib
  have h0 : (s.reg ⟨b.toNat, hb⟩).toNat = 0 := congrArg BitVec.toNat hzero
  exact ⟨alu_div_zero s ha hb h0, s.raise .divisionByZero, exec_mod_zero s ha hb h0, s.raise_err _, s.raise_run _,
    s.raise_reg _ ia, step_stopped (s.raise_run _)⟩

end Sys2Proof.Machine
end

section
/-! SUPPORT. What an instruction leaves unchanged (10_state R24, 20_memory section 3, 40 R117): first of a completed handler, then
of the whole instruction, which otherwise has raised. -/

namespace Sys2Proof.Machine

/-! Completed handlers, field by field. -/

/-- A register that the instruction does not write reads as before. -/
theorem handler_ok_reg {i : Instr} {s u : State} (h : handler i s = .ok u) {j : RegIdx} (hj : ¬ writesRegister i j) :
    u.reg j = s.reg j := by
  rcases handler_ok_cases h with ⟨-, k, v, hk, rfl⟩ | ⟨_, _, -, rfl⟩ | ⟨-, rfl⟩ | ⟨_, _, _, _, -, rfl⟩ | ⟨_, _, rfl, rfl⟩ |
    ⟨_, k, v, rfl, hk, rfl⟩ | ⟨_, _, _, rfl, rfl, -⟩ | ⟨rfl, _, rfl, -⟩ | ⟨-, _, rfl, -⟩
  case inl => exact s.writeReg_reg_ne v fun e => hj (e ▸ hk)
  case inr.inr.inr.inr.inl => exact (decSp_reg s j).trans (if_neg hj)
  case inr.inr.inr.inr.inr.inl =>
    have hjk : j ≠ k := fun e => hj (e ▸ hk)
    have hsp : j ≠ spIdx := fun e => hj (.inr e)
    rw [incSp_reg, if_neg hsp, s.writeReg_reg_ne v hjk]
  case inr.inr.inr.inr.inr.inr.inl => exact (decSp_reg s j).trans (if_neg hj)
  case inr.inr.inr.inr.inr.inr.inr.inl => exact (incSp_reg _ j).trans (if_neg hj)
  all_goals rfl

/-- Memory is as before, but for the byte PUSH or CALL stores at the decremented `SP`. -/
theorem handler_ok_mem {i : Instr} {s u : State} (h : handler i s = .ok u) :
    u.mem = s.mem ∨ ((∃ a, i = .push a ∨ i = .call a) ∧ ∃ v, u.mem = s.mem.poke s.decSp.sp.toNat v) := by
  rcases handler_ok_cases h with ⟨-, _, _, -, rfl⟩ | ⟨_, _, -, rfl⟩ | ⟨-, rfl⟩ | ⟨_, _, _, _, -, rfl⟩ | ⟨a, v, hpush, rfl⟩ |
    ⟨_, _, _, -, -, rfl⟩ | ⟨a, v, _, hcall, rfl, -⟩ | ⟨-, _, rfl, -⟩ | ⟨-, _, rfl, -⟩
  case inr.inr.inr.inr.inl => exact .inr ⟨⟨a, .inl hpush⟩, v, rfl⟩
  case inr.inr.inr.inr.inr.inr.inl => exact .inr ⟨⟨a, .inr hcall⟩, v, rfl⟩
  all_goals exact .inl rfl

theorem handler_ok_out {i : Instr} {s u : State} (h : handler i s = .ok u) (hi : ∀ a, i ≠ .prn a) : u.out = s.out := by
  rcases handler_ok_cases h with ⟨-, _, _, -, rfl⟩ | ⟨a, _, hprn, -⟩ | ⟨-, rfl⟩ | ⟨_, _, _, _, -, rfl⟩ | ⟨_, _, -, rfl⟩ |
    ⟨_, _, _, -, -, rfl⟩ | ⟨_, _, _, -, rfl, -⟩ | ⟨-, _, rfl, -⟩ | ⟨-, _, rfl, -⟩
  case inr.inl => exact absurd hprn (hi a)
  all_goals rfl

/-- Bit 4 is set in the rows that place `PC` themselves (30_encoding R86). -/
theorem setsPc_iff {o : Opcode} : o.setsPc = true ↔ o ∈ [Opcode.call, .ret, .jmp, .jeq, .jne] := by cases o <;> decide

/-- Bit 4 is clear in the other rows. -/
theorem setsPc_eq_false_of_mem {o : Opcode}
    (h : o ∈ [Opcode.ldi, .mul, .add, .and, .or, .xor, .not, .shl, .shr, .mod] ++ [.prn, .hlt, .cmp, .push, .pop]) :
    o.setsPc = false := by
  revert h
  cases o <;> decide

/-- A handler leaves `PC` to the loop, or its opcode's bit 4 is set and it has placed `PC` itself: at an address, or past an untaken
conditional jump (30_encoding R81). -/
theorem handler_ok_pc {i : Instr} {s u : State} (h : handler i s = .ok u) :
    (i.opcode.setsPc = false ∧ u.pc = s.pc) ∨
    (i.opcode.setsPc = true ∧
      (u.pc ≤ 255 ∨ ((∃ a, i = .jeq a ∨ i = .jne a) ∧ accessedOperands i s = [] ∧ u.pc = s.pc + 2))) := by
  rcases handler_ok_cases h with ⟨hop, _, _, -, rfl⟩ | ⟨_, _, rfl, rfl⟩ | ⟨rfl, rfl⟩ | ⟨_, _, _, _, rfl, rfl⟩ | ⟨_, _, rfl, rfl⟩ |
    ⟨_, _, _, rfl, -, rfl⟩ | ⟨_, _, _, rfl, rfl, hp⟩ | ⟨rfl, _, rfl, hp⟩ | ⟨⟨a, hi⟩, p, rfl, hp⟩
  case inl => exact .inl ⟨setsPc_eq_false_of_mem (List.mem_append_left _ hop), rfl⟩
  case inr.inr.inr.inr.inr.inr.inl => exact .inr ⟨setsPc_iff.2 (by decide : Opcode.call ∈ _), .inl hp⟩
  case inr.inr.inr.inr.inr.inr.inr.inl => exact .inr ⟨setsPc_iff.2 (by decide : Opcode.ret ∈ _), .inl hp⟩
  case inr.inr.inr.inr.inr.inr.inr.inr =>
    rcases hi with rfl | rfl | rfl
    · exact .inr ⟨setsPc_iff.2 (by decide : Opcode.jmp ∈ _), .inl (hp.resolve_right fun ⟨_, hacc⟩ => nomatch hacc)⟩
    · exact .inr ⟨setsPc_iff.2 (by decide : Opcode.jeq ∈ _),
        hp.imp_right fun ⟨hpc, hacc⟩ => ⟨⟨a, .inl rfl⟩, hacc, hpc⟩⟩
    · exact .inr ⟨setsPc_iff.2 (by decide : Opcode.jne ∈ _),
        hp.imp_right fun ⟨hpc, hacc⟩ => ⟨⟨a, .inr rfl⟩, hacc, hpc⟩⟩
  all_goals exact .inl ⟨setsPc_eq_false_of_mem (by simp [Instr.opcode]), rfl⟩

/-! The program-counter update. -/

@[simp] theorem loopAdvance_reg (o : Opcode) (s : State) (j : RegIdx) : (loopAdvance o s).reg j = s.reg j := by
  obtain ⟨p, hp⟩ := loopAdvance_eq_setPc o s
  rw [hp, State.setPc_reg]

@[simp] theorem loopAdvance_out (o : Opcode) (s : State) : (loopAdvance o s).out = s.out := by
  obtain ⟨p, hp⟩ := loopAdvance_eq_setPc o s
  rw [hp, State.setPc_out]

@[simp] theorem loopAdvance_mem (o : Opcode) (s : State) : (loopAdvance o s).mem = s.mem := by
  obtain ⟨p, hp⟩ := loopAdvance_eq_setPc o s
  rw [hp, State.setPc_mem]

theorem loopAdvance_pc (o : Opcode) (s : State) :
    (loopAdvance o s).pc = if o.setsPc then s.pc else s.pc + 1 + o.operandCount := by
  unfold loopAdvance
  split <;> rfl

/-! Whole instructions. -/

/-- Settles O42: a handler completes or raises, and both end in a next state. -/
theorem everyInstructionHasAnEffectInEveryState : Obligations.EveryInstructionHasAnEffectInEveryState := exec_total

theorem exec_mem {i : Instr} {s t : State} (h : exec i s = .next t) :
    t.mem = s.mem ∨ ((∃ a, i = .push a ∨ i = .call a) ∧ ∃ v, t.mem = s.mem.poke s.decSp.sp.toNat v) := by
  rcases exec_next h with ⟨u, hu, rfl⟩ | ⟨c, -, rfl⟩
  · rw [loopAdvance_mem]
    exact handler_ok_mem hu
  · exact .inl rfl

/-- Every cell but the one at the decremented `SP` is as before, whatever the instruction. -/
theorem exec_peek_ne {i : Instr} {s t : State} {addr : Nat} (h : exec i s = .next t) (ha : addr ≠ s.decSp.sp.toNat) :
    t.mem.peek addr = s.mem.peek addr := by
  rcases exec_mem h with hm | ⟨-, v, hm⟩
  · rw [hm]
  · rw [hm, Memory.peek_poke_ne _ v ha.symm]

/-- Settles O24: a completed handler writes only its destinations, and a raise writes none. -/
theorem onlyDestinationRegistersChange : Obligations.OnlyDestinationRegistersChange := by
  intro i s t h j hj
  rcases exec_next h with ⟨u, hu, rfl⟩ | ⟨c, -, rfl⟩
  · rw [loopAdvance_reg, handler_ok_reg hu hj]
  · exact s.raise_reg c j

/-- Settles O25: the only write of memory is PUSH's and CALL's, to the cell at the decremented `SP`. -/
theorem onlyPushAndCallStore : Obligations.OnlyPushAndCallStore := by
  refine ⟨?_, fun a s t addr => exec_peek_ne, fun a s t addr => exec_peek_ne⟩
  intro i s t h hpush hcall addr
  rcases exec_mem h with hm | ⟨⟨a, hi | hi⟩, -⟩
  · rw [hm]
  · exact absurd hi (hpush a)
  · exact absurd hi (hcall a)

/-- Settles O27: a completed handler other than PRN's leaves `OUT`, other than HLT's leaves `RUN` and the report. -/
theorem outputAndRunStateFrame : Obligations.OutputAndRunStateFrame := by
  refine ⟨fun i s t h hi => ?_, fun i s t h hi => ?_⟩
  · rcases exec_next h with ⟨u, hu, rfl⟩ | ⟨c, -, rfl⟩
    · rw [loopAdvance_out, handler_ok_out hu hi]
    · exact s.raise_out c
  · rcases exec_next h with ⟨u, hu, rfl⟩ | ⟨c, -, rfl⟩
    · rw [loopAdvance_run, loopAdvance_err]
      exact .inl ⟨handler_ok_run hu hi, (handler_ok_err_fl hu).1⟩
    · exact .inr ⟨c, raise_raisedOnly s c⟩

/-- Settles O29: bit 4 of the opcode says whether the loop or the handler places `PC`. -/
theorem programCounterAfterInstruction : Obligations.ProgramCounterAfterInstruction := by
  refine ⟨fun i s t h hbit => ?_, fun i s t h hbit => ?_⟩
  all_goals
    have hsets : i.opcode.setsPc = _ := hbit
    rcases exec_next h with ⟨u, hu, rfl⟩ | ⟨c, -, rfl⟩
  · rcases handler_ok_pc hu with ⟨-, hpc⟩ | ⟨htrue, -⟩
    · rw [loopAdvance_pc, hsets, hpc, encode_length, Nat.add_assoc]
      exact .inl rfl
    · cases hsets.symm.trans htrue
  · exact .inr ⟨c, raise_raisedOnly s c⟩
  · rcases handler_ok_pc hu with ⟨hfalse, -⟩ | ⟨-, hpc⟩
    · cases hsets.symm.trans hfalse
    · rw [loopAdvance_pc, hsets]
      exact hpc.imp_right .inl
  · exact .inr (.inr ⟨c, raise_raisedOnly s c⟩)

end Sys2Proof.Machine
end

section
/-! SUPPORT. The machine's invariants (10_state R39): the reset state meets them, and every step and every action of the host keeps
them. -/

namespace Sys2Proof.Machine

/-- CMP writes flags a run can reach (10_state R31, 45 R203). -/
theorem flLegal_compareFlags (x y : Byte) : flLegal (compareFlags x y) := by
  unfold compareFlags
  split_ifs
  · exact .inr (.inl rfl)
  · exact .inr (.inr (.inl rfl))
  · exact .inr (.inr (.inr rfl))

/-- Flags change to those of a comparison, or not at all. -/
theorem handler_ok_fl {i : Instr} {s u : State} (h : handler i s = .ok u) : u.fl = s.fl ∨ ∃ x y, u.fl = compareFlags x y := by
  rcases handler_ok_cases h with ⟨-, _, _, -, rfl⟩ | ⟨_, _, -, rfl⟩ | ⟨-, rfl⟩ | ⟨_, _, x, y, -, rfl⟩ | ⟨_, _, -, rfl⟩ |
    ⟨_, _, _, -, -, rfl⟩ | ⟨_, _, _, -, rfl, -⟩ | ⟨-, _, rfl, -⟩ | ⟨-, _, rfl, -⟩
  case inr.inr.inr.inl => exact .inr ⟨x, y, rfl⟩
  all_goals exact .inl rfl

/-- An instruction that lies within memory leaves `PC` at most 256 (10_state R27). -/
theorem loopAdvance_pc_le {i : Instr} {s u : State} (h : handler i s = .ok u) (hh : s.holds i) :
    (loopAdvance i.opcode u).pc ≤ 256 := by
  have hlen : s.pc + (1 + i.opcode.operandCount) ≤ 256 := encode_length i ▸ hh.1
  rw [loopAdvance_pc]
  rcases handler_ok_pc h with ⟨hsets, hpc⟩ | ⟨hsets, hpc | ⟨⟨a, rfl | rfl⟩, -, hpc⟩⟩
  · rw [hsets, hpc]
    simp only [Bool.false_eq_true, if_false]
    omega
  · rw [hsets, if_pos rfl]
    omega
  all_goals
    rw [hsets, if_pos rfl, hpc]
    exact hh.1

/-- A running core that meets the invariants has no report. -/
theorem Inv.err_eq_none {s : State} (hs : Inv s) (hr : s.run = .running) : s.err = none := by
  cases he : s.err with
  | none => rfl
  | some e => cases hr.symm.trans (hs.err e he).1

/-- Without a report, nothing is asked of one. -/
theorem Inv.of_err_eq_none {s : State} (hm : s.mem.wf = true) (hp : s.pc ≤ 256) (hf : flLegal s.fl) (he : s.err = none) : Inv s :=
  ⟨hm, hp, hf, fun _ h => nomatch he.symm.trans h⟩

/-- Raising a condition keeps the invariants: the report it leaves is with a stopped core and has its `PC`. -/
theorem Inv.raise {s : State} (hs : Inv s) (c : Cause) : Inv (s.raise c) :=
  ⟨hs.memory, hs.pc_le, hs.fl, fun e he => by cases he; exact ⟨rfl, rfl⟩⟩

/-- An instruction that stands at `PC` keeps the invariants of a core without a report. -/
theorem Inv.exec {i : Instr} {s t : State} (hs : Inv s) (he : s.err = none) (hh : s.holds i) (h : exec i s = .next t) : Inv t := by
  rcases exec_next h with ⟨u, hu, rfl⟩ | ⟨c, -, rfl⟩
  · refine Inv.of_err_eq_none ?_ (loopAdvance_pc_le hu hh) ?_ ?_
    · rw [loopAdvance_mem]
      rcases handler_ok_mem hu with hm | ⟨-, v, hm⟩
      · rw [hm]
        exact hs.memory
      · rw [hm]
        exact Memory.wf_poke v s.decSp.sp.isLt hs.memory
    · rw [loopAdvance_fl]
      rcases handler_ok_fl hu with hf | ⟨x, y, hf⟩
      · rw [hf]
        exact hs.fl
      · rw [hf]
        exact flLegal_compareFlags x y
    · rw [loopAdvance_err, (handler_ok_err_fl hu).1, he]
  · exact hs.raise c

/-- Settles O43: a step is no change, an instruction that stands at `PC`, or a raise at the fetch, and each keeps the
invariants. -/
theorem stepKeepsInvariant : Obligations.StepKeepsInvariant := by
  intro s t hs h
  rcases step_cases h with ⟨-, rfl⟩ | ⟨hr, i, -, hh, -, hx⟩ | ⟨-, c, -, -, rfl⟩
  · exact hs
  · exact hs.exec (hs.err_eq_none hr) hh hx
  · exact hs.raise c

/-- Settles O44: every field of the reset state is a literal that meets its part of the invariants. -/
theorem resetMeetsInvariant : Obligations.ResetMeetsInvariant :=
  Inv.of_err_eq_none rfl (Nat.zero_le _) (.inl rfl) State.reset_err

theorem Inv.load {s : State} (hs : Inv s) (image : List Byte) : Inv (s.load image) := by
  by_cases h : s.awaitsImage ∧ image.length ≤ 256
  · obtain ⟨ha, hl⟩ := h
    rw [load_of_awaitsImage ha hl]
    exact ⟨Memory.wf_loadFrom ((Nat.zero_add _).trans_le hl) hs.memory, hs.pc_le, hs.fl, hs.err⟩
  · rw [load_of_not ((not_and_or.1 h).imp_right Nat.lt_of_not_le)]
    exact hs

theorem Inv.start {s : State} (hs : Inv s) : Inv s.start := by
  by_cases h : s.run = .stopped ∧ s.err = none
  · obtain ⟨hr, he⟩ := h
    rw [start_of_stopped hr he]
    exact Inv.of_err_eq_none hs.memory hs.pc_le hs.fl he
  · rwa [State.start, if_neg h]

theorem Inv.actionEffect {s : State} (hs : Inv s) : ∀ action, Inv (actionEffect action s)
  | .reset => resetMeetsInvariant
  | .load image => hs.load image
  | .start => hs.start

/-- Settles O45: each action's effect keeps the invariants, and a move of the host is its action's effect. -/
theorem hostActionsKeepInvariant : Obligations.HostActionsKeepInvariant := by
  intro s action hs
  refine ⟨hs.actionEffect action, fun t h => ?_⟩
  obtain ⟨-, rfl⟩ := hostAct_eq_some h
  exact hs.actionEffect action

end Sys2Proof.Machine
end

section
/-! SUPPORT. Encoding and decoding are inverse (30_encoding R80 to R90), and the bit fields of the opcode byte (R86). -/

namespace Sys2Proof

theorem operandsRoundTrip : ∀ i, Laws.OperandsRoundTrip.Statement i
  | .ldi a b => Laws.OperandsRoundTrip.ldi a b
  | .prn a => Laws.OperandsRoundTrip.prn a
  | .hlt => Laws.OperandsRoundTrip.hlt
  | .mul a b => Laws.OperandsRoundTrip.mul a b
  | .add a b => Laws.OperandsRoundTrip.add a b
  | .cmp a b => Laws.OperandsRoundTrip.cmp a b
  | .and a b => Laws.OperandsRoundTrip.and a b
  | .or a b => Laws.OperandsRoundTrip.or a b
  | .xor a b => Laws.OperandsRoundTrip.xor a b
  | .not a => Laws.OperandsRoundTrip.not a
  | .shl a b => Laws.OperandsRoundTrip.shl a b
  | .shr a b => Laws.OperandsRoundTrip.shr a b
  | .mod a b => Laws.OperandsRoundTrip.mod a b
  | .pop a => Laws.OperandsRoundTrip.pop a
  | .push a => Laws.OperandsRoundTrip.push a
  | .call a => Laws.OperandsRoundTrip.call a
  | .ret => Laws.OperandsRoundTrip.ret
  | .jmp a => Laws.OperandsRoundTrip.jmp a
  | .jeq a => Laws.OperandsRoundTrip.jeq a
  | .jne a => Laws.OperandsRoundTrip.jne a

/-- The decoder finds the row by its byte, and the row's form takes the operand bytes back. -/
theorem decode_encode_append (i : Instr) (rest : List Byte) : decode (encode i ++ rest) = .ok (i, rest) :=
  (decode_known _ (dispatch_byte i.opcode)).trans (operandsRoundTrip i rest)

theorem decode_encode (i : Instr) : decode (encode i) = .ok (i, []) :=
  (congrArg decode (List.append_nil _)).symm.trans (decode_encode_append i [])

/-- What decodes is an encoding followed by the rest. -/
theorem eq_encode_append_of_decode {bytes rest : List Byte} {i : Instr} (h : decode bytes = .ok (i, rest)) :
    bytes = encode i ++ rest := by
  cases bytes with
  | nil => cases h
  | cons op bytes =>
    cases hd : dispatch op with
    | none =>
      rw [decode_unknown _ hd] at h
      cases h
    | some o =>
      rw [decode_known _ hd] at h
      obtain ⟨ho, rfl⟩ := decodeOperands_ok h
      rw [encode, ho, byte_of_dispatch hd, List.cons_append]

/-- Settles O47: what decodes is an encoding, and of a nonempty sequence either the opcode is unknown or an operand is missing. -/
theorem decodeReadsOnlyEncodings : Obligations.DecodeReadsOnlyEncodings := by
  refine ⟨fun bytes rest i => eq_encode_append_of_decode, fun op rest e h => ?_⟩
  cases hd : dispatch op with
  | none =>
    rw [decode_unknown _ hd] at h
    cases h
    exact .inl ⟨rfl, rfl⟩
  | some o =>
    rw [decode_known _ hd] at h
    exact .inr ⟨o, rfl, (decodeOperands_error_iff o rest e).1 h⟩

/-- Settles O48: each word is its instruction's encoding. -/
theorem tableWordsDecode : Obligations.TableWordsDecode := fun a b =>
  ⟨decode_encode (.ldi a b), decode_encode (.prn a), decode_encode .hlt, decode_encode (.mul a b), decode_encode (.add a b),
    decode_encode (.cmp a b), decode_encode (.and a b), decode_encode (.or a b), decode_encode (.xor a b), decode_encode (.not a),
    decode_encode (.shl a b), decode_encode (.shr a b), decode_encode (.mod a b), decode_encode (.pop a), decode_encode (.push a),
    decode_encode (.call a), decode_encode .ret, decode_encode (.jmp a), decode_encode (.jeq a), decode_encode (.jne a)⟩

/-- Bit 5 is set in the ALU's rows (30_encoding R86). -/
theorem isAlu_iff {o : Opcode} :
    o.isAlu = true ↔ o ∈ [Opcode.mul, .add, .cmp, .and, .or, .xor, .not, .shl, .shr, .mod] := by cases o <;> decide

/-- Settles O49: the fields are read off the twenty opcode bytes. -/
theorem opcodeFieldsAgreeWithTheTable : Obligations.OpcodeFieldsAgreeWithTheTable := fun i =>
  ⟨encode_length i, operandCount_le_two i.opcode, isAlu_iff, Machine.setsPc_iff⟩

end Sys2Proof

namespace Sys2Proof.Machine

/-- Bytes loaded at `PC` that fit into memory stand there (70 R262). -/
theorem holds_loadFrom {i : Instr} {s : State} (h : s.pc + (encode i).length ≤ 256) :
    State.holds { s with mem := s.mem.loadFrom s.pc (encode i) } i := by
  refine ⟨h, fun k hk => ?_⟩
  have hin : s.pc ≤ s.pc + k ∧ s.pc + k < s.pc + (encode i).length := by omega
  rw [Memory.peek_loadFrom, dif_pos hin]
  simp only [Nat.add_sub_cancel_left]

/-- Settles O46: decoding undoes encoding, and an instruction loaded at `PC` stands there and is fetched. -/
theorem decodeOfEncodeIsTheInstruction : Obligations.DecodeOfEncodeIsTheInstruction :=
  ⟨decode_encode_append, fun _ _ h => fetch_of_holds (holds_loadFrom h)⟩

end Sys2Proof.Machine
end

section
/-! SUPPORT. Fatal conditions (60 R220 to R231): where each is raised, at the fetch (40 R112 to R114) or in a handler, and what a
raise changes. -/

namespace Sys2Proof.Machine

/-! Raising. -/

theorem raises_of_handler_error {i : Instr} {s : State} {c : Cause} (h : handler i s = .error c) : raises (exec i s) s c :=
  ⟨s.raise c, exec_of_error h, raise_raisedOnly s c⟩

theorem raises_of_fetch_error {s : State} {c : Cause} (hr : s.run = .running) (h : fetch s = .error c) : raises (step s) s c :=
  ⟨s.raise c, step_of_error hr h, raise_raisedOnly s c⟩

/-- Settles O36: the handler checks the registers it accesses before anything else. -/
theorem accessedOperandAboveSevenRaises : Obligations.AccessedOperandAboveSevenRaises :=
  fun _ _ _ hk h => raises_of_handler_error (handler_of_operand hk h)

/-- CALL at 254 or beyond has no return address (43 R164, D4). -/
theorem handleCall_error {a : Byte} {s : State} (h : 254 ≤ s.pc) : handleCall a s = .error .outOfBoundsAddress := by
  have hp : 255 < s.pc + 2 := by omega
  by_cases ha : a.toNat < 8
  · rw [handleCall, withReg_ok ha, if_pos hp]
  · exact withReg_error ha _

/-! The step at a place that holds an instruction, or none. -/

theorem step_of_holds {s : State} {i : Instr} (hr : s.run = .running) (h : s.holds i) : step s = exec i s :=
  step_of_ok hr (fetch_of_holds h)

/-- Settles O40: bytes that are an instruction, or decode to it, are fetched as it. -/
theorem stepExecutesTheInstructionAtPc : Obligations.StepExecutesTheInstructionAtPc := by
  refine ⟨fun s i => step_of_holds, fun s i rest hr h => step_of_ok hr ?_⟩
  rw [fetch, h]

/-- An opcode without operands stands whole wherever its byte is. -/
theorem holds_of_findsOpcode {s : State} {i : Instr} (h : s.findsOpcode i.opcode.byte) (hi : encode i = [i.opcode.byte]) :
    s.holds i := by
  obtain ⟨-, hp, hb⟩ := h
  unfold State.holds
  rw [hi]
  refine ⟨Nat.succ_le_succ hp, fun k hk => ?_⟩
  obtain rfl : k = 0 := Nat.lt_one_iff.1 hk
  exact hb

/-- Settles O41: the fetch raises before any instruction runs. -/
theorem fetchFaultsNearTheTop : Obligations.FetchFaultsNearTheTop := by
  refine ⟨fun s hr h => raises_of_fetch_error hr (fetch_beyond h), ?_, ?_⟩
  · rintro s op o ⟨hr, hp, rfl⟩ hd hn
    exact raises_of_fetch_error hr (fetch_operand_beyond hp hd hn)
  · rintro s op ⟨hr, hp, rfl⟩ hd
    exact raises_of_fetch_error hr (fetch_unknown hp hd)

/-- The fetch of a row's operands raises from the first address where they do not fit. -/
theorem fetchRaisesFrom_byte (o : Opcode) {lo : Nat} (h : 255 < lo + o.operandCount) : fetchRaisesFrom o.byte lo :=
  fun s hs hlo => fetchFaultsNearTheTop.2.1 s o.byte o hs (dispatch_byte o) (by omega)

/-! Where a report comes from. -/

/-- An instruction leaves the report alone or raises. -/
theorem exec_err_or_raise {i : Instr} {s t : State} (h : exec i s = .next t) :
    t.err = s.err ∨ ∃ c, handler i s = .error c ∧ t = s.raise c := by
  rcases exec_next h with ⟨u, hu, rfl⟩ | hraise
  · exact .inl ((loopAdvance_err _ u).trans (handler_ok_err_fl hu).1)
  · exact .inr hraise

/-- A step leaves the report alone or raises, at the fetch or in the handler of the instruction at `PC`. -/
theorem step_err_or_raise {s t : State} (h : step s = .next t) :
    t.err = s.err ∨ ∃ c, t = s.raise c ∧ (fetch s = .error c ∨ ∃ i, s.holds i ∧ handler i s = .error c) := by
  rcases step_cases h with ⟨-, rfl⟩ | ⟨-, i, -, hh, -, hx⟩ | ⟨-, c, hf, -, ht⟩
  · exact .inl rfl
  · exact (exec_err_or_raise hx).imp_right fun ⟨c, hc, ht⟩ => ⟨c, ht, .inr ⟨i, hh, hc⟩⟩
  · exact .inr ⟨c, ht, .inl hf⟩

/-- A report that was not there before is a raise's. -/
theorem step_reports {s t : State} {c : Cause} {p : Nat} (hs : s.err = none) (h : step s = .next t)
    (he : t.err = some ⟨c, p⟩) :
    t = s.raise c ∧ (fetch s = .error c ∨ ∃ i, s.holds i ∧ handler i s = .error c) := by
  rcases step_err_or_raise h with he' | ⟨d, rfl, hd⟩
  · cases (he'.trans hs).symm.trans he
  · cases he
    exact ⟨rfl, hd⟩

/-- Settles O30: a new report is a raise's, and beyond the last address the only raise is the fetch's. -/
theorem raisingStepChangesOnlyErrAndRun : Obligations.RaisingStepChangesOnlyErrAndRun := by
  intro s t _ hs hpc h he
  obtain ⟨⟨c, p⟩, he⟩ := Option.ne_none_iff_exists'.1 he
  obtain ⟨rfl, hsrc⟩ := step_reports hs h he
  refine ⟨c, raise_raisedOnly s c, ?_⟩
  rcases hsrc with hf | ⟨i, hh, -⟩
  · refine (Nat.le_or_eq_of_le_succ hpc).imp_right fun htop => ⟨htop, ?_⟩
    cases (fetch_beyond (htop.symm ▸ Nat.lt_succ_self 255)).symm.trans hf
    rfl
  · exact .inl (holds_opcode hh).1

/-- The fetch raises `OutOfBoundsAddress` where the opcode or an operand byte lies beyond 255 (40 R112, R114). -/
theorem fetch_outOfBoundsAddress_iff {s : State} :
    fetch s = .error .outOfBoundsAddress ↔
      255 < s.pc ∨ (s.pc ≤ 255 ∧ ∃ o, dispatch (s.mem.peek s.pc) = some o ∧ 255 < s.pc + o.operandCount) := by
  constructor
  · intro h
    rcases fetch_cases s with ⟨hp, -⟩ | ⟨-, -, hf⟩ | ⟨hp, ho, -⟩ | ⟨-, i, hf, -⟩
    · exact .inl hp
    · cases hf.symm.trans h
    · exact .inr ⟨hp, ho⟩
    · cases hf.symm.trans h
  · rintro (hp | ⟨hp, o, hd, hn⟩)
    · exact fetch_beyond hp
    · exact fetch_operand_beyond hp hd hn

/-- A handler raises `OutOfBoundsAddress` for an operand above 7 that it accesses, or as CALL's without a return address (60 R224). -/
theorem handler_outOfBoundsAddress_iff {i : Instr} {s : State} :
    handler i s = .error .outOfBoundsAddress ↔
      (∃ k ∈ accessedOperands i s, 7 < k.toNat) ∨ ∃ a, i = .call a ∧ 254 ≤ s.pc := by
  constructor
  · intro h
    rcases handler_error_cases h with ⟨-, hk⟩ | ⟨-, a, hi, hp⟩ | ⟨hc, -⟩
    · exact .inl hk
    · exact .inr ⟨a, hi, by omega⟩
    · cases hc
  · rintro (⟨k, hk, h⟩ | ⟨a, rfl, hp⟩)
    · exact handler_of_operand hk h
    · exact handleCall_error hp

/-- Settles O35: the sites are those of the fetch and of the handlers, and `PC` bounds make 256 and 254 the only addresses for the
first and the last. -/
theorem outOfBoundsAddressExactlyAtItsSites : Obligations.OutOfBoundsAddressExactlyAtItsSites := by
  intro s t hr hs hpc h
  have raised (hraise : step s = .next (s.raise .outOfBoundsAddress)) : ∃ p, t.err = some ⟨.outOfBoundsAddress, p⟩ := by
    cases h.symm.trans hraise
    exact ⟨s.pc, rfl⟩
  refine ⟨⟨?_, ?_⟩, fun p he => (step_reports hs h he).1 ▸ raise_raisedOnly s _⟩
  · rintro ⟨p, he⟩
    obtain ⟨-, hf | ⟨i, hh, hi⟩⟩ := step_reports hs h he
    · exact (fetch_outOfBoundsAddress_iff.1 hf).imp (Nat.le_antisymm hpc) .inl
    · rcases handler_outOfBoundsAddress_iff.1 hi with hk | ⟨a, rfl, hp⟩
      · exact .inr (.inr (.inl ⟨i, hh, hk⟩))
      · have hfit : s.pc + 2 ≤ 256 := hh.1
        exact .inr (.inr (.inr ⟨a, hh, by omega⟩))
  · rintro (hp | hbytes | ⟨i, hh, hk⟩ | ⟨a, hh, hp⟩)
    · exact raised (step_of_error hr (fetch_outOfBoundsAddress_iff.2 (.inl (by omega))))
    · exact raised (step_of_error hr (fetch_outOfBoundsAddress_iff.2 (.inr hbytes)))
    · exact raised ((step_of_holds hr hh).trans (exec_of_error (handler_outOfBoundsAddress_iff.2 (.inl hk))))
    · exact raised ((step_of_holds hr hh).trans (exec_of_error (handler_outOfBoundsAddress_iff.2 (.inr ⟨a, rfl, hp.ge⟩))))

/-- The register operands a well-formed instruction accesses name registers. -/
theorem le_seven_of_wellFormed {i : Instr} {s : State} {k : Byte} (h : i.wellFormed = true) (hk : k ∈ accessedOperands i s) :
    k.toNat ≤ 7 := by
  cases i
  case hlt => cases hk
  case ret => cases hk
  all_goals
    simp only [accessedOperands, List.mem_ite_nil_left, List.mem_ite_nil_right, List.mem_cons, List.not_mem_nil, or_false] at hk
    simp only [Instr.wellFormed, registerOperandValid, Bool.and_eq_true, decide_eq_true_eq] at h
    grind

/-- Settles O37: of a raising handler's reasons, a well-formed instruction leaves CALL's return address and MOD's divisor. -/
theorem wellFormedInstructionsRaiseOnlyInCallAndMod : Obligations.WellFormedInstructionsRaiseOnlyInCallAndMod := by
  intro i s t hwf h
  rcases exec_err_or_raise h with he | ⟨c, hc, rfl⟩
  · exact .inl he
  refine .inr ?_
  rcases handler_error_cases hc with ⟨-, k, hk, hlarge⟩ | ⟨rfl, a, hi, hp⟩ | ⟨rfl, a, b, hi, -, hb, h0⟩
  · exact absurd (le_seven_of_wellFormed hwf hk) (Nat.not_le_of_lt hlarge)
  · exact .inl ⟨a, hi, by omega, raise_raisedOnly s _⟩
  · exact .inr ⟨a, b, ⟨b.toNat, hb⟩, hi, rfl, BitVec.eq_of_toNat_eq h0, raise_raisedOnly s _⟩

/-! `UnsupportedOperation`. -/

theorem fetch_ne_unsupportedOperation (s : State) : fetch s ≠ .error .unsupportedOperation := by
  intro h
  rcases fetch_cases s with ⟨-, hf⟩ | ⟨-, -, hf⟩ | ⟨-, -, hf⟩ | ⟨-, i, hf, -⟩ <;> cases hf.symm.trans h

theorem handler_ne_unsupportedOperation (i : Instr) (s : State) : handler i s ≠ .error .unsupportedOperation := by
  intro h
  rcases handler_error_cases h with ⟨hc, -⟩ | ⟨hc, -⟩ | ⟨hc, -⟩ <;> cases hc

/-- A register operand raises nothing but `OutOfBoundsAddress`. -/
theorem withReg_ne_unsupportedOperation {k : Byte} {f : RegIdx → Except Cause State}
    (hf : ∀ j, f j ≠ .error .unsupportedOperation) : withReg k f ≠ .error .unsupportedOperation := by
  intro h
  rcases withReg_eq_error h with ⟨-, hc⟩ | ⟨_, h⟩
  · cases hc
  · exact hf _ h

theorem aluBinary_ne_unsupportedOperation (f : Nat → Nat → Except Cause Int) (a b : Byte) (s : State)
    (hf : ∀ x y, f x y ≠ .error .unsupportedOperation) : aluBinary f a b s ≠ .error .unsupportedOperation := by
  intro h
  rcases aluBinary_eq_error h with ⟨-, hc⟩ | ⟨_, _, h⟩
  · cases hc
  · exact hf _ _ h

/-- The twelve operations' own conditions do not include it (40 R122, R124). -/
theorem alu_ne_unsupportedOperation (tag : AluTag) (a b : Byte) (s : State) :
    alu (some tag) a b s ≠ .error .unsupportedOperation := by
  cases tag with
  | add => exact aluBinary_ne_unsupportedOperation aluAdd a b s nofun
  | sub => exact aluBinary_ne_unsupportedOperation aluSub a b s nofun
  | mul => exact aluBinary_ne_unsupportedOperation aluMul a b s nofun
  | div =>
    refine aluBinary_ne_unsupportedOperation aluDiv a b s fun x y => ?_
    unfold aluDiv
    split <;> nofun
  | mod =>
    refine aluBinary_ne_unsupportedOperation aluMod a b s fun x y => ?_
    unfold aluMod
    split <;> nofun
  | and => exact aluBinary_ne_unsupportedOperation aluAnd a b s nofun
  | or => exact aluBinary_ne_unsupportedOperation aluOr a b s nofun
  | xor => exact aluBinary_ne_unsupportedOperation aluXor a b s nofun
  | not => exact withReg_ne_unsupportedOperation nofun
  | shl => exact aluBinary_ne_unsupportedOperation aluShl a b s nofun
  | shr => exact aluBinary_ne_unsupportedOperation aluShr a b s nofun
  | cmp => exact withReg_ne_unsupportedOperation fun _ => withReg_ne_unsupportedOperation nofun

/-- Settles O32: the ALU refuses an unknown tag at once, and neither its operations nor the fetch nor a handler raises this
condition. -/
theorem unsupportedOperationOnlyFromUnknownTag : Obligations.UnsupportedOperationOnlyFromUnknownTag := by
  refine ⟨fun o a b s => ⟨s.raise .unsupportedOperation, finish_error o s _, s.raise_err _, s.raise_run _⟩,
    alu_ne_unsupportedOperation, fun s t p h he => ?_⟩
  rcases step_err_or_raise h with he' | ⟨c, rfl, hsrc⟩
  · exact he'
  · cases he
    rcases hsrc with hf | ⟨i, -, hi⟩
    · exact absurd hf (fetch_ne_unsupportedOperation s)
    · exact absurd hi (handler_ne_unsupportedOperation i s)

/-! After a raise. -/

/-- A core that has raised awaits no image: it has a report. -/
theorem not_awaitsImage_of_err {s : State} (h : s.err ≠ none) : ¬ s.awaitsImage := fun ha => by
  obtain ⟨-, -, -, -, he, -⟩ := awaitsImage_iff.1 ha
  exact h he

/-- Settles O31: a raise leaves a stopped core with a report, where `start` and `load` do nothing. -/
theorem onlyResetLeavesAFailedState : Obligations.OnlyResetLeavesAFailedState := by
  intro s c image
  have hr : (s.raise c).run = .stopped := s.raise_run c
  have he : (s.raise c).err ≠ none := nofun
  refine ⟨step_stopped hr, ?_, ?_, hostAct_stopped hr _⟩
  · exact (hostAct_stopped hr _).trans (congrArg some (start_of_not (.inr he)))
  · exact (hostAct_stopped hr _).trans (congrArg some (load_of_not (.inl (not_awaitsImage_of_err he))))

theorem errCode_of_err_eq_none {s : State} (h : s.err = none) : s.errCode = 0 := by rw [State.errCode, h]

theorem errCode_raise (s : State) (c : Cause) : (s.raise c).errCode = c.code := rfl

/-- Settles O38: the port shows the report's cause. -/
theorem causeCodesOnTheStatusPort : Obligations.CauseCodesOnTheStatusPort :=
  ⟨fun _ => errCode_of_err_eq_none,
    fun s => ⟨errCode_raise s _, errCode_raise s _, errCode_raise s _, errCode_raise s _⟩⟩

end Sys2Proof.Machine
end

section
/-! SUPPORT. LDI, PRN and the jumps (41_data_movement, 43_control_flow), with the rules that the effects of all instructions are
stated with: a register operand that names a register, one register written, `PC` moved. -/

namespace Sys2Proof.Machine

/-- An operand byte names a register when it is the register's index, which is then in range. -/
theorem operandNames_iff {k : Byte} {i : RegIdx} : operandNames k i ↔ ∃ h : k.toNat < 8, i = ⟨k.toNat, h⟩ :=
  ⟨fun h => ⟨h ▸ i.isLt, Fin.ext h.symm⟩, fun ⟨_, h⟩ => h ▸ rfl⟩

/-- Writing a register and moving `PC` changes nothing else. -/
theorem wroteReg_writeReg_setPc (s : State) (i : RegIdx) {v : Int} {n : Nat} (p : Nat) (hv : (mask8 v).toNat = n) :
    wroteReg s ((s.writeReg i v).setPc p) i n p := by
  refine ⟨?_, fun j hj => s.writeReg_reg_ne v hj, rfl, rfl, ⟨rfl, rfl, rfl⟩, fun _ => rfl⟩
  rw [State.setPc_reg, State.writeReg_reg_same, hv]

theorem movedPc_setPc (s : State) (p : Nat) : movedPc s (s.setPc p) p :=
  ⟨rfl, fun _ => rfl, rfl, ⟨rfl, rfl, rfl⟩, fun _ => rfl⟩

/-- An instruction whose only register operand is above 7 raises. -/
theorem raises_of_operand {i : Instr} {s : State} {a : Byte} (hi : accessedOperands i s = [a]) (h : 7 < a.toNat) :
    raises (exec i s) s .outOfBoundsAddress :=
  accessedOperandAboveSevenRaises i s a (hi ▸ List.mem_singleton_self a) h

/-- Settles O1: a register write of a byte needs no masking, and `a` is the only register operand. -/
theorem ldiLoadsImmediate : Obligations.LdiLoadsImmediate := by
  refine ⟨fun s a b i hi => ?_, fun s a b => raises_of_operand rfl, fun a b => rfl, fetchRaisesFrom_byte .ldi (by decide)⟩
  obtain ⟨ha, rfl⟩ := operandNames_iff.1 hi
  exact ⟨_, exec_ldi s b ha, wroteReg_writeReg_setPc s _ _ (congrArg BitVec.toNat (mask8_byte b))⟩

/-- Settles O2: the register's byte is the one appended. -/
theorem prnAppendsRegisterToOutput : Obligations.PrnAppendsRegisterToOutput := by
  refine ⟨fun s a i hi => ?_, fun s a => raises_of_operand rfl, fun a => rfl, fetchRaisesFrom_byte .prn (by decide)⟩
  obtain ⟨ha, rfl⟩ := operandNames_iff.1 hi
  exact ⟨_, exec_prn s ha, rfl, rfl, fun _ => rfl, rfl, rfl, rfl, fun _ => rfl⟩

/-- Settles O7: the handler places `PC`, and the loop leaves it. -/
theorem jmpSetsPcFromRegister : Obligations.JmpSetsPcFromRegister := by
  refine ⟨fun s a i hi => ?_, fun s a => raises_of_operand rfl, fun a => rfl, fetchRaisesFrom_byte .jmp (by decide)⟩
  obtain ⟨ha, rfl⟩ := operandNames_iff.1 hi
  exact ⟨_, exec_jmp s ha, movedPc_setPc s _⟩

/-- Settles O8: taken, it is JMP; untaken, it accesses no register. -/
theorem jeqJumpsWhenEqual : Obligations.JeqJumpsWhenEqual := by
  refine ⟨fun s a i hE hi => ?_, fun s a hE => ⟨_, exec_jeq_not_taken s a hE, movedPc_setPc s _⟩,
    fun s a hE => raises_of_operand (if_pos hE), fun a => rfl, fetchRaisesFrom_byte .jeq (by decide)⟩
  obtain ⟨ha, rfl⟩ := operandNames_iff.1 hi
  exact ⟨_, exec_jeq_taken s ha hE, movedPc_setPc s _⟩

/-- Settles O9: taken, it is JMP; untaken, it accesses no register. -/
theorem jneJumpsWhenNotEqual : Obligations.JneJumpsWhenNotEqual := by
  refine ⟨fun s a i hE hi => ?_, fun s a hE => ⟨_, exec_jne_not_taken s a hE, movedPc_setPc s _⟩,
    fun s a hE => raises_of_operand (if_neg (Bool.not_eq_true _ ▸ hE)), fun a => rfl, fetchRaisesFrom_byte .jne (by decide)⟩
  obtain ⟨ha, rfl⟩ := operandNames_iff.1 hi
  exact ⟨_, exec_jne_taken s ha hE, movedPc_setPc s _⟩

/-- Settles O6: HLT stops the core, its byte is all of it, and a clean stop is a HLT's because every other stop leaves a
report. -/
theorem hltStopsPastItself : Obligations.HltStopsPastItself := by
  refine ⟨fun s => ⟨_, exec_hlt s, rfl, rfl, fun _ => rfl, rfl, rfl, rfl, fun _ => rfl, step_stopped rfl⟩, rfl, ?_, ?_⟩
  · exact fun s h => step_of_holds h.1 (holds_of_findsOpcode (i := .hlt) h rfl)
  · intro s t hr hs h hstop he
    obtain ⟨u, hu, hiff⟩ := loopStopsOnlyByHltOrCondition.2 s hr hs
    cases hu.symm.trans h
    exact (hiff.1 hstop).resolve_right (absurd he)

end Sys2Proof.Machine
end

section
/-! SUPPORT. The stack (42_stack) and the subroutine calls (43_control_flow): a byte stored below the top, and read back. -/

namespace Sys2Proof.Machine

/-! The stack pointer, and what leaves it alone. -/

@[simp] theorem setPc_sp (s : State) (p : Nat) : (s.setPc p).sp = s.sp := rfl

theorem writeReg_sp_of_ne (s : State) {i : RegIdx} (v : Int) (h : i ≠ spIdx) : (s.writeReg i v).sp = s.sp :=
  s.writeReg_reg_ne v h.symm

/-- `SP - 1` wraps at 0 (D10). -/
theorem decSp_sp_toNat (s : State) : s.decSp.sp.toNat = (s.sp.toNat + 255) % 256 := by
  rw [decSp_sp, BitVec.toNat_sub, Nat.add_comm]
  rfl

/-- `SP + 1` wraps at 255 (D10). -/
theorem incSp_sp_toNat (s : State) : s.incSp.sp.toNat = (s.sp.toNat + 1) % 256 := by
  rw [incSp_sp, BitVec.toNat_add]
  rfl

/-- A register read after the decrement: `R7` is the decremented `SP` (D17). -/
theorem decSp_reg_eq (s : State) (j : RegIdx) : s.decSp.reg j = if j = spIdx then s.decSp.sp else s.reg j := by
  rw [decSp_reg, decSp_sp]

theorem sameRegsBut_decSp (s : State) : sameRegsBut (fun j => j = spIdx) s s.decSp :=
  fun j hj => (decSp_reg s j).trans (if_neg hj)

/-! A byte stored at the decremented `SP`, as PUSH and CALL do. -/

theorem peek_setCell_same (s : State) (addr : Nat) (v : Byte) : (s.setCell addr v).mem.peek addr = v := Memory.peek_poke_same _ _ _

theorem peek_setCell_ne (s : State) {addr other : Nat} (v : Byte) (h : other ≠ addr) :
    (s.setCell addr v).mem.peek other = s.mem.peek other := Memory.peek_poke_ne _ v h.symm

/-- Settles O3: the store is at the decremented `SP`, of the register as the decrement left it. -/
theorem pushStoresRegisterBelowTop : Obligations.PushStoresRegisterBelowTop := by
  refine ⟨fun s a i hi => ?_, fun s a => raises_of_operand rfl⟩
  obtain ⟨ha, rfl⟩ := operandNames_iff.1 hi
  exact ⟨_, exec_push s ha, decSp_sp_toNat s, (peek_setCell_same _ _ _).trans (decSp_reg_eq s _),
    fun addr h => peek_setCell_ne _ _ h, sameRegsBut_decSp s, rfl, rfl, rfl, rfl, rfl⟩

/-- Settles O10: CALL stores as PUSH does, the return address for the register; the sites of its raise are those of its handler. -/
theorem callPushesReturnAddress : Obligations.CallPushesReturnAddress := by
  refine ⟨fun s a i hi hp => ?_, fun s a h => ?_⟩
  · obtain ⟨ha, rfl⟩ := operandNames_iff.1 hi
    refine ⟨_, exec_call s ha hp, decSp_sp_toNat s, ?_, fun addr h => peek_setCell_ne _ _ h,
      congrArg BitVec.toNat (decSp_reg_eq s _), sameRegsBut_decSp s, rfl, rfl, rfl, rfl⟩
    calc _ = (BitVec.ofNat 8 (s.pc + 2)).toNat := congrArg BitVec.toNat (peek_setCell_same _ _ _)
      _ = s.pc + 2 := BitVec.toNat_ofNat _ _ ▸ Nat.mod_eq_of_lt (Nat.lt_succ_of_le hp)
  · rcases h with ha | hp
    · exact raises_of_operand rfl ha
    · exact raises_of_handler_error (handleCall_error hp)

/-! The byte at `SP` read, as POP and RET do. -/

/-- Settles O4: where the destination is `R7`, the increment acts on the popped byte. -/
theorem popLoadsTopOfStack : Obligations.PopLoadsTopOfStack := by
  refine ⟨fun s a i hi hne => ?_, fun s a hi => ?_, fun s a => raises_of_operand rfl⟩
  · obtain ⟨ha, rfl⟩ := operandNames_iff.1 hi
    refine ⟨_, exec_pop s ha, ?_, ?_, fun j hj => ?_, rfl, rfl, ⟨rfl, rfl, rfl⟩, fun _ => rfl⟩
    · rw [State.setPc_reg, incSp_reg, if_neg hne, State.writeReg_reg_same, mask8_byte]
    · rw [setPc_sp, incSp_sp_toNat, writeReg_sp_of_ne s _ hne]
    · obtain ⟨hji, hsp⟩ := not_or.1 hj
      rw [State.setPc_reg, incSp_reg, if_neg hsp, s.writeReg_reg_ne _ hji]
  · obtain ⟨ha, hsp⟩ := operandNames_iff.1 hi
    refine ⟨_, exec_pop s ha, ?_, fun j hj => ?_, rfl, rfl, ⟨rfl, rfl, rfl⟩, fun _ => rfl⟩
    · rw [← hsp]
      calc _ = ((s.writeReg spIdx (s.mem.peek s.sp.toNat).toNat).sp.toNat + 1) % 256 := incSp_sp_toNat _
        _ = _ := by rw [State.sp, State.writeReg_reg_same, mask8_byte]
    · rw [← hsp, State.setPc_reg, incSp_reg, if_neg hj, s.writeReg_reg_ne _ hj]

/-- Settles O11: the byte at `SP` becomes `PC`; its own byte is all of the instruction. -/
theorem retPopsProgramCounter : Obligations.RetPopsProgramCounter := by
  refine ⟨fun s => ⟨_, exec_ret s, incSp_sp_toNat _, fun j hj => ?_, rfl, rfl, ⟨rfl, rfl, rfl⟩, fun _ => rfl⟩, rfl,
    fun s h => step_of_holds h.1 (holds_of_findsOpcode (i := .ret) h rfl)⟩
  rw [incSp_reg, if_neg hj, State.setPc_reg]

/-! Stored, then read back. -/

/-- A byte one below, and then one up again, is the byte. -/
theorem eq_of_toNat_succ_pred {x y z : Byte} (hy : y.toNat = (x.toNat + 255) % 256) (hz : z.toNat = (y.toNat + 1) % 256) :
    z = x := by
  apply BitVec.eq_of_toNat_eq
  have := x.isLt
  omega

/-- Settles O5: PUSH and POP as stated above, with the cell and `SP` carried over. -/
theorem popRestoresWhatPushStored : Obligations.PopRestoresWhatPushStored := by
  intro s t u a b i j hi hj hisp hjsp hpush hsp hcell
  obtain ⟨t', ht', htsp, htop, -⟩ := pushStoresRegisterBelowTop.1 s a i hi
  cases ht'.symm.trans hpush
  obtain ⟨v, hv, hreg, hvsp, -⟩ := popLoadsTopOfStack.1 u b j hj hjsp
  refine ⟨v, hv, ?_, eq_of_toNat_succ_pred htsp (hsp ▸ hvsp)⟩
  rw [hreg, hcell, htop, if_neg hisp]

/-- Settles O12: CALL and RET as stated above, with the cell and `SP` carried over. -/
theorem retReturnsPastCall : Obligations.RetReturnsPastCall := by
  intro s t u a i hi hp hcall hsp hcell
  obtain ⟨t', ht', htsp, htop, -⟩ := callPushesReturnAddress.1 s a i hi hp
  cases ht'.symm.trans hcall
  obtain ⟨v, hv, hvsp, -, hvpc, -⟩ := retPopsProgramCounter.1 u
  refine ⟨v, hv, ?_, eq_of_toNat_succ_pred htsp (hsp ▸ hvsp)⟩
  rw [hvpc, hcell, htop]

/-- Settles O23: the stored byte stands where the next step fetches. -/
theorem pushedByteIsFetchedNext : Obligations.PushedByteIsFetchedNext := by
  refine ⟨?_, ?_⟩
  · intro s a v i hr hh hi hcell hv
    obtain ⟨t, ht, htsp, htop, -, -, hpc, -, hrun, herr, -⟩ := pushStoresRegisterBelowTop.1 s a i hi
    have htdec : t.sp = s.decSp.sp := BitVec.eq_of_toNat_eq (htsp.trans (decSp_sp_toNat s).symm)
    have hfind : t.findsOpcode v := by
      refine ⟨hrun.trans hr, ?_, ?_⟩
      · have := s.decSp.sp.isLt
        omega
      · rw [hpc, ← hcell, ← htdec, htop, htdec, hv]
    refine ⟨t, (step_of_holds hr hh).trans ht, hfind, fun hhlt => ?_, fun hd => fetchFaultsNearTheTop.2.2 t v hfind hd⟩
    obtain ⟨hhalt, -, hstep, -⟩ := hltStopsPastItself
    obtain ⟨u, hu, hustop, hupc, -, -, huerr, -⟩ := hhalt t
    exact ⟨u, (hstep t (hhlt ▸ hfind)).trans hu, hustop, huerr.trans herr, by rw [hupc, hpc]⟩
  · intro s a i hr hh hi hp htarget
    obtain ⟨t, ht, htsp, htop, -, hpc, -, -, hrun, -⟩ := callPushesReturnAddress.1 s a i hi hp
    have htdec : t.sp = s.decSp.sp := BitVec.eq_of_toNat_eq (htsp.trans (decSp_sp_toNat s).symm)
    have hpc : t.pc = s.decSp.sp.toNat := by
      rw [hpc, htdec]
      split
      · rfl
      · exact congrArg BitVec.toNat (htarget.resolve_left ‹_›)
    refine ⟨t, (step_of_holds hr hh).trans ht, hpc, hrun.trans hr, ?_, ?_⟩
    · have := s.decSp.sp.isLt
      omega
    · apply BitVec.eq_of_toNat_eq
      rw [hpc, ← htdec, htop, BitVec.toNat_ofNat, Nat.mod_eq_of_lt (Nat.lt_succ_of_le hp)]

end Sys2Proof.Machine
end

section
/-! SUPPORT. The ALU's instructions (44_alu_bitwise, 45_alu_arithmetic): the masked result in numbers and in bits, and the flags of
a comparison. -/

namespace Sys2Proof.Machine

/-! The masked result. -/

/-- Settles O21: the mask is the remainder modulo 256, and the rest is what a register write leaves alone. -/
theorem registerWriteIsMasked : Obligations.RegisterWriteIsMasked := by
  refine fun s i v => ⟨?_, fun j hj => s.writeReg_reg_ne v hj, rfl, rfl, ⟨rfl, rfl, rfl⟩, fun _ => rfl⟩
  rw [State.writeReg_reg_same, mask8_toNat]

/-- Masking keeps the eight low bits. -/
theorem getLsbD_mask8_natCast (n : Nat) {k : Nat} (hk : k < 8) : (mask8 (n : Int)).getLsbD k = n.testBit k := by
  rw [mask8, BitVec.ofInt_natCast, BitVec.getLsbD_ofNat, decide_eq_true hk, Bool.true_and]

/-- The complement in the ALU's integers is the complement of the byte (44 R183). -/
theorem mask8_aluNot (x : Byte) : mask8 (aluNot x.toNat) = ~~~x := by
  apply BitVec.eq_of_toNat_eq
  have hmask : ((mask8 (aluNot x.toNat)).toNat : Int) = (255 - (x.toNat : Int)) % 256 := mask8_toNat _
  have := x.isLt
  rw [BitVec.toNat_not]
  omega

/-- The difference modulo 256 in natural numbers (45 R204). -/
theorem mask8_sub_toNat (x y : Byte) : (mask8 ((x.toNat : Int) - (y.toNat : Int))).toNat = (x.toNat + 256 - y.toNat) % 256 := by
  have hmask := mask8_toNat ((x.toNat : Int) - (y.toNat : Int))
  have := y.isLt
  omega

/-- A result that is no more than the byte it is made from needs no masking. -/
theorem mask8_natCast_toNat_of_le {n : Nat} (x : Byte) (h : n ≤ x.toNat) : (mask8 (n : Int)).toNat = n :=
  (mask8_natCast_toNat n).trans (Nat.mod_eq_of_lt (h.trans_lt x.isLt))

/-! The two-operand operations. -/

/-- Settles O13: the exact sum and product are masked where they are written. -/
theorem addAndMulWrapModulo256 : Obligations.AddAndMulWrapModulo256 := by
  intro s a b i j hi hj
  obtain ⟨ha, rfl⟩ := operandNames_iff.1 hi
  obtain ⟨hb, rfl⟩ := operandNames_iff.1 hj
  exact ⟨⟨_, exec_add s ha hb, wroteReg_writeReg_setPc s _ _ (mask8_natCast_toNat (_ + _))⟩,
    ⟨_, exec_mul s ha hb, wroteReg_writeReg_setPc s _ _ (Int.natCast_mul .. ▸ mask8_natCast_toNat _)⟩⟩

/-- Settles O14: the remainder is no more than the dividend, so it is written unmasked. -/
theorem modLeavesRemainder : Obligations.ModLeavesRemainder := by
  intro s a b i j hi hj h0
  obtain ⟨ha, rfl⟩ := operandNames_iff.1 hi
  obtain ⟨hb, rfl⟩ := operandNames_iff.1 hj
  have hpos : (s.reg ⟨b.toNat, hb⟩).toNat ≠ 0 := fun h => h0 (BitVec.eq_of_toNat_eq h)
  exact ⟨_, _, _, exec_mod s ha hb hpos,
    wroteReg_writeReg_setPc s _ _ (mask8_natCast_toNat_of_le _ (Nat.mod_le _ _)),
    Nat.mod_lt _ (Nat.pos_of_ne_zero hpos), (Nat.div_add_mod' _ _).symm⟩

/-- What a bitwise operation leaves: a written register whose bits are those of the unmasked result. -/
theorem wroteReg_and_bits (s : State) (i : RegIdx) (n p : Nat) :
    wroteReg s ((s.writeReg i n).setPc p) i (((s.writeReg i n).setPc p).reg i).toNat p ∧
      ∀ k < 8, (((s.writeReg i n).setPc p).reg i).getLsbD k = n.testBit k := by
  rw [State.setPc_reg, State.writeReg_reg_same]
  exact ⟨wroteReg_writeReg_setPc s i p rfl, fun k => getLsbD_mask8_natCast n⟩

/-- Settles O15: the operations on numbers act on each bit, and masking keeps the eight bits. -/
theorem bitwiseOperationsActBitByBit : Obligations.BitwiseOperationsActBitByBit := by
  intro s a b i j hi hj
  obtain ⟨ha, rfl⟩ := operandNames_iff.1 hi
  obtain ⟨hb, rfl⟩ := operandNames_iff.1 hj
  refine ⟨⟨_, exec_and s ha hb, ?_⟩, ⟨_, exec_or s ha hb, ?_⟩, ⟨_, exec_xor s ha hb, ?_⟩⟩
  all_goals
    obtain ⟨hwrote, hbits⟩ := wroteReg_and_bits s ⟨a.toNat, ha⟩ _ (s.pc + 3)
    refine ⟨hwrote, fun k hk => (hbits k hk).trans ?_⟩
  · rw [Nat.testBit_and, BitVec.testBit_toNat, BitVec.testBit_toNat]
  · rw [Nat.testBit_or, BitVec.testBit_toNat, BitVec.testBit_toNat]
  · rw [Nat.testBit_xor, BitVec.testBit_toNat, BitVec.testBit_toNat]

/-- Settles O16: NOT writes the byte's complement, which undoes itself. -/
theorem notComplementsRegister : Obligations.NotComplementsRegister := by
  refine ⟨fun s a i hi => ?_, fun s a => raises_of_operand rfl, fun a => rfl, fetchRaisesFrom_byte .not (by decide)⟩
  obtain ⟨ha, rfl⟩ := operandNames_iff.1 hi
  have hreg (u : State) (p : Nat) :
      ((u.writeReg ⟨a.toNat, ha⟩ (aluNot (u.reg ⟨a.toNat, ha⟩).toNat)).setPc p).reg ⟨a.toNat, ha⟩ = ~~~u.reg ⟨a.toNat, ha⟩ := by
    rw [State.setPc_reg, State.writeReg_reg_same, mask8_aluNot]
  refine ⟨_, exec_not s ha, wroteReg_writeReg_setPc s _ _ ?_, fun k hk => ?_, _, exec_not _ ha, ?_⟩
  · rw [mask8_aluNot, BitVec.toNat_not]
  · rw [hreg, BitVec.getLsbD_not, decide_eq_true hk, Bool.true_and]
  · rw [hreg, hreg, BitVec.not_not]

/-- All eight bits are shifted out of a byte at the top. -/
theorem mul_two_pow_mod_eq_zero (x : Nat) {n : Nat} (hn : 8 ≤ n) : x * 2 ^ n % 256 = 0 :=
  Nat.mod_eq_zero_of_dvd ((Nat.pow_dvd_pow 2 hn).mul_left x)

/-- All eight bits are shifted out of a byte at the bottom. -/
theorem toNat_div_two_pow_eq_zero (x : Byte) {n : Nat} (hn : 8 ≤ n) : x.toNat / 2 ^ n = 0 :=
  Nat.div_eq_of_lt (x.isLt.trans_le (Nat.pow_le_pow_right (Nat.succ_pos 1) hn))

/-- Settles O17: a shift is written as the masked product or the quotient, and a count of 8 or more makes either 0. -/
theorem shiftsUseTheWholeCount : Obligations.ShiftsUseTheWholeCount := by
  intro s a b i j hi hj
  obtain ⟨ha, rfl⟩ := operandNames_iff.1 hi
  obtain ⟨hb, rfl⟩ := operandNames_iff.1 hj
  have hshl := wroteReg_writeReg_setPc s ⟨a.toNat, ha⟩ (s.pc + 3)
    (mask8_natCast_toNat ((s.reg ⟨a.toNat, ha⟩).toNat * 2 ^ (s.reg ⟨b.toNat, hb⟩).toNat))
  have hshr := wroteReg_writeReg_setPc s ⟨a.toNat, ha⟩ (s.pc + 3)
    (mask8_natCast_toNat_of_le (s.reg ⟨a.toNat, ha⟩) (Nat.div_le_self _ (2 ^ (s.reg ⟨b.toNat, hb⟩).toNat)))
  refine ⟨⟨_, exec_shl s ha hb, hshl, fun h8 => ?_⟩, ⟨_, exec_shr s ha hb, hshr, fun h8 => ?_⟩⟩
  · exact BitVec.eq_of_toNat_eq (hshl.1.trans (mul_two_pow_mod_eq_zero _ h8))
  · exact BitVec.eq_of_toNat_eq (hshr.1.trans (toNat_div_two_pow_eq_zero _ h8))

/-! The comparison. -/

/-- The bits of a comparison's flags (45 R203). -/
theorem compareFlags_bits (x y : Byte) :
    (compareFlags x y).getLsbD Config.flEBit = decide (x.toNat = y.toNat) ∧
    (compareFlags x y).getLsbD Config.flGBit = decide (y.toNat < x.toNat) ∧
    (compareFlags x y).getLsbD Config.flLBit = decide (x.toNat < y.toNat) := by
  unfold compareFlags
  rcases Nat.lt_trichotomy x.toNat y.toNat with hlt | heq | hgt
  · simp only [hlt, hlt.ne, hlt.not_gt, if_false, decide_true, decide_false]
    decide
  · simp only [heq, lt_irrefl, if_true, decide_true, decide_false]
    decide
  · simp only [hgt, hgt.ne', hgt.not_gt, if_true, if_false, decide_true, decide_false]
    decide

/-- Settles O18: CMP writes the flags of the comparison and nothing else. -/
theorem cmpSetsFlagsByUnsignedOrder : Obligations.CmpSetsFlagsByUnsignedOrder := by
  refine ⟨fun s a b i j hi hj => ?_, fun s a b h => ?_, fun a b => rfl, fetchRaisesFrom_byte .cmp (by decide)⟩
  · obtain ⟨ha, rfl⟩ := operandNames_iff.1 hi
    obtain ⟨hb, rfl⟩ := operandNames_iff.1 hj
    obtain ⟨hE, hG, hL⟩ := compareFlags_bits (s.reg ⟨a.toNat, ha⟩) (s.reg ⟨b.toNat, hb⟩)
    exact ⟨_, exec_cmp s ha hb, hE, hG, hL, rfl, fun _ => rfl, ⟨rfl, rfl, rfl⟩, fun _ => rfl⟩
  · rcases h with ha | hb
    · exact accessedOperandAboveSevenRaises _ s a List.mem_cons_self ha
    · exact accessedOperandAboveSevenRaises _ s b (List.mem_cons_of_mem a (List.mem_singleton_self b)) hb

/-- Settles O19: the three flag values at the decided bit positions. -/
theorem cmpFlagValuesAtDecidedPositions : Obligations.CmpFlagValuesAtDecidedPositions := by
  intro s t a b i j hi hj h
  obtain ⟨ha, rfl⟩ := operandNames_iff.1 hi
  obtain ⟨hb, rfl⟩ := operandNames_iff.1 hj
  cases (exec_cmp s ha hb).symm.trans h
  rw [State.setPc_fl, State.setFl_fl, compareFlags]
  simp only [BitVec.toNat_inj]
  rfl

/-! SUB and DIV, which no opcode reaches (45 R204, R205). -/

/-- A two-operand operation with an index above 7 raises before its function is looked at (40 R115, R116). -/
theorem aluBinary_of_operand (f : Nat → Nat → Except Cause Int) {a b : Byte} (s : State) (h : 7 < a.toNat ∨ 7 < b.toNat) :
    aluBinary f a b s = .error .outOfBoundsAddress := by
  by_cases ha : a.toNat < 8
  · rw [aluBinary, withReg_ok ha]
    exact withReg_error (by omega) _
  · exact withReg_error ha _

/-- With valid indices and a value from its function, the ALU writes the first register and nothing else. -/
theorem aluBinary_wroteReg {f : Nat → Nat → Except Cause Int} {a b : Byte} {s : State} (ha : a.toNat < 8) (hb : b.toNat < 8)
    {v : Int} {n : Nat} (hf : f (s.reg ⟨a.toNat, ha⟩).toNat (s.reg ⟨b.toNat, hb⟩).toNat = .ok v) (hv : (mask8 v).toNat = n) :
    ∃ t, aluBinary f a b s = .ok t ∧ wroteReg s t ⟨a.toNat, ha⟩ n s.pc :=
  ⟨s.writeReg ⟨a.toNat, ha⟩ v, by rw [aluBinary_ok ha hb, hf], wroteReg_writeReg_setPc s _ s.pc hv⟩

/-- Settles O20: SUB and DIV are `aluBinary` as the rows' operations are, and the lookup has no row for `A1` and `A3`. -/
theorem aluSubAndDivWithoutOpcode : Obligations.AluSubAndDivWithoutOpcode := by
  refine ⟨fun s a b i j hi hj => ?_, fun s a b h => ⟨aluBinary_of_operand aluSub s h, aluBinary_of_operand aluDiv s h⟩,
    fun rest => decode_unknown rest (by decide), fun rest => decode_unknown rest (by decide)⟩
  obtain ⟨ha, rfl⟩ := operandNames_iff.1 hi
  obtain ⟨hb, rfl⟩ := operandNames_iff.1 hj
  refine ⟨aluBinary_wroteReg (f := aluSub) ha hb rfl (mask8_sub_toNat _ _), fun h0 => ?_,
    fun h0 => alu_div_zero s ha hb (congrArg BitVec.toNat h0)⟩
  have hpos : (s.reg ⟨b.toNat, hb⟩).toNat ≠ 0 := fun h => h0 (BitVec.eq_of_toNat_eq h)
  exact aluBinary_wroteReg (f := aluDiv) ha hb (if_neg hpos) (mask8_natCast_toNat_of_le _ (Nat.div_le_self _ _))

end Sys2Proof.Machine
end

section
/-! SUPPORT. The output trace `OUT` (10_state R34) is only appended to: what was printed before commutes with every handler. -/

namespace Sys2Proof.Machine

/-- `s` with the bytes `before` printed before all of its own output. -/
def State.afterOutput (s : State) (before : List Byte) : State := { s with out := before ++ s.out }

/-- A change of state that commutes behind each register commutes behind a register operand, which raises or goes on. -/
theorem withReg_map {k : Byte} {f : State → State} {g g' : RegIdx → Except Cause State} (h : ∀ j, g' j = (g j).map f) :
    withReg k g' = (withReg k g).map f := by
  by_cases hk : k.toNat < 8
  · rw [withReg_ok hk, withReg_ok hk, h]
  · rw [withReg_error hk, withReg_error hk]
    rfl

section
variable (a b : Byte) (s : State) (before : List Byte)

@[simp] theorem afterOutput_pc : (s.afterOutput before).pc = s.pc := rfl

@[simp] theorem afterOutput_reg (j : RegIdx) : (s.afterOutput before).reg j = s.reg j := rfl

/-- A byte printed comes last in either case. -/
theorem emit_afterOutput (v : Byte) : (s.afterOutput before).emit v = (s.emit v).afterOutput before := by
  simp only [State.emit, State.afterOutput, List.append_assoc]

theorem aluBinary_afterOutput (op : Nat → Nat → Except Cause Int) :
    aluBinary op a b (s.afterOutput before) = (aluBinary op a b s).map (·.afterOutput before) :=
  withReg_map fun i => withReg_map fun j => by
    rw [afterOutput_reg, afterOutput_reg]
    cases op (s.reg i).toNat (s.reg j).toNat <;> rfl

theorem handlePop_afterOutput : handlePop a (s.afterOutput before) = (handlePop a s).map (·.afterOutput before) :=
  withReg_map fun i => by
    rw [memRead_byte, memRead_byte]
    rfl

theorem handlePush_afterOutput : handlePush a (s.afterOutput before) = (handlePush a s).map (·.afterOutput before) :=
  withReg_map fun i => by
    simp only [memWrite_byte]
    rfl

theorem handleCall_afterOutput : handleCall a (s.afterOutput before) = (handleCall a s).map (·.afterOutput before) :=
  withReg_map fun i => by
    rw [afterOutput_pc]
    split
    · rfl
    · simp only [memWrite_byte]
      rfl

theorem handleRet_afterOutput : handleRet (s.afterOutput before) = (handleRet s).map (·.afterOutput before) := by
  rw [handleRet_ok, handleRet_ok]
  rfl

theorem jumpTo_afterOutput : jumpTo a (s.afterOutput before) = (jumpTo a s).map (·.afterOutput before) :=
  withReg_map fun _ => rfl

theorem jumpIf_afterOutput (taken : Bool) :
    jumpIf taken a (s.afterOutput before) = (jumpIf taken a s).map (·.afterOutput before) := by
  cases taken with
  | true => exact jumpTo_afterOutput a s before
  | false => rfl

end

/-- Every handler does the same after any earlier output. -/
theorem handler_afterOutput (i : Instr) (s : State) (before : List Byte) :
    handler i (s.afterOutput before) = (handler i s).map (·.afterOutput before) := by
  cases i with
  | ldi a b => exact withReg_map fun _ => rfl
  | prn a => exact withReg_map fun j => congrArg Except.ok (emit_afterOutput s before (s.reg j))
  | hlt => rfl
  | mul a b => exact aluBinary_afterOutput a b s before aluMul
  | add a b => exact aluBinary_afterOutput a b s before aluAdd
  | cmp a b => exact withReg_map fun _ => withReg_map fun _ => rfl
  | and a b => exact aluBinary_afterOutput a b s before aluAnd
  | or a b => exact aluBinary_afterOutput a b s before aluOr
  | xor a b => exact aluBinary_afterOutput a b s before aluXor
  | not a => exact withReg_map fun _ => rfl
  | shl a b => exact aluBinary_afterOutput a b s before aluShl
  | shr a b => exact aluBinary_afterOutput a b s before aluShr
  | mod a b => exact aluBinary_afterOutput a b s before aluMod
  | pop a => exact handlePop_afterOutput a s before
  | push a => exact handlePush_afterOutput a s before
  | call a => exact handleCall_afterOutput a s before
  | ret => exact handleRet_afterOutput s before
  | jmp a => exact jumpTo_afterOutput a s before
  | jeq a => exact jumpIf_afterOutput a s before s.flagE
  | jne a => exact jumpIf_afterOutput a s before (!s.flagE)

theorem loopAdvance_afterOutput (o : Opcode) (s : State) (before : List Byte) :
    loopAdvance o (s.afterOutput before) = (loopAdvance o s).afterOutput before := by
  unfold loopAdvance
  split <;> rfl

/-- Settles O28: the handler, the program-counter update and a raise all commute with earlier output. -/
theorem noInstructionReadsOutput : Obligations.NoInstructionReadsOutput := by
  intro i s before
  have hcomm : handler i (s.afterOutput before) = (handler i s).map (·.afterOutput before) := handler_afterOutput i s before
  cases h : handler i s with
  | ok u =>
    rw [h] at hcomm
    exact ⟨_, exec_of_ok h, exec_of_ok_eq hcomm (loopAdvance_afterOutput _ u before)⟩
  | error c =>
    rw [h] at hcomm
    exact ⟨_, exec_of_error h, exec_of_error hcomm⟩

end Sys2Proof.Machine
end

section
/-! SUPPORT. Reset, load and start (70 R260 to R262, 40 R126), and the window between reset and `start` in which the host writes
memory (D26). -/

namespace Sys2Proof.Machine

/-- Settles O50: the registers are checked one by one, and a memory without cells reads as `RESET_MEM` everywhere. -/
theorem resetValues : Obligations.ResetValues :=
  ⟨rfl, rfl, by decide, rfl, rfl, rfl, rfl, fun _ => rfl, fun _ => rfl⟩

/-- Settles O51: an accepted start updates `RUN` alone. -/
theorem startRunsAStoppedCore : Obligations.StartRunsAStoppedCore := by
  refine ⟨fun s hr he => ?_, fun s => start_of_not⟩
  rw [start_of_stopped hr he]
  exact ⟨rfl, rfl, rfl, rfl, rfl, rfl, rfl⟩

/-- Settles O52: what the loaded bytes leave in each cell is the law of `loadFrom`. -/
theorem loadWritesTheImageFromZero : Obligations.LoadWritesTheImageFromZero := by
  refine ⟨fun s image ha hl => ?_, fun s image => load_of_not⟩
  rw [load_of_awaitsImage ha hl]
  refine ⟨fun k hk => ?_, fun addr haddr => ?_, rfl, rfl, rfl, rfl, rfl, rfl⟩
  · have hin : 0 ≤ k ∧ k < 0 + image.length := by omega
    rw [Memory.peek_loadFrom, dif_pos hin]
    rfl
  · have hout : ¬ (0 ≤ addr ∧ addr < 0 + image.length) := by omega
    rw [Memory.peek_loadFrom, dif_neg hout]

/-! The window. -/

theorem start_mem (s : State) : s.start.mem = s.mem := by
  unfold State.start
  split <;> rfl

/-- A load leaves the window open: it writes nothing but memory. -/
theorem load_awaitsImage {s : State} (h : s.awaitsImage) (image : List Byte) : (s.load image).awaitsImage := by
  unfold State.load
  split
  · exact awaitsImage_iff.2 ((awaitsImage_iff (s := s)).1 h)
  · exact h

/-- A start closes the window: the core runs, or keeps a report. -/
theorem not_start_awaitsImage {s : State} (hr : s.run = .stopped) : ¬ s.start.awaitsImage := by
  by_cases he : s.err = none
  · rw [start_of_stopped hr he, awaitsImage_iff]
    rintro ⟨-, -, -, hrun, -⟩
    cases hrun
  · rw [start_of_not (.inr he)]
    exact not_awaitsImage_of_err he

/-- An instruction opens no window: the core runs on, has stopped past a HLT at `PC >= 1`, or has a report. -/
theorem exec_not_awaitsImage {i : Instr} {s t : State} (hr : s.run = .running) (h : exec i s = .next t) : ¬ t.awaitsImage := by
  rw [awaitsImage_iff]
  rintro ⟨-, hpc, -, hrun, herr, -⟩
  by_cases hi : i = .hlt
  · subst hi
    cases (exec_hlt s).symm.trans h
    cases hpc
  · rcases exec_next h with ⟨u, hu, rfl⟩ | ⟨c, -, rfl⟩
    · rw [loopAdvance_run, handler_ok_run hu hi, hr] at hrun
      cases hrun
    · cases herr

theorem step_not_awaitsImage {s t : State} (hr : s.run = .running) (h : step s = .next t) : ¬ t.awaitsImage := by
  rcases step_cases h with ⟨hstop, -⟩ | ⟨-, i, -, -, -, hx⟩ | ⟨-, c, -, -, rfl⟩
  · cases hr.symm.trans hstop
  · exact exec_not_awaitsImage hr hx
  · exact not_awaitsImage_of_err nofun

/-- Settles O53: a move of the host is its action's effect on a stopped core, and the laws above say which effects write memory
and which open or close the window. -/
theorem hostMovesOnlyWhileStopped : Obligations.HostMovesOnlyWhileStopped := by
  refine ⟨fun s action h => hostAct_running h action, fun s action h => hostAct_stopped h action, ?_, ?_, ?_, ?_,
    fun s t => step_not_awaitsImage⟩
  · intro s t action h hreset hw
    obtain ⟨-, rfl⟩ := hostAct_eq_some h
    cases action with
    | reset => exact absurd rfl hreset
    | load image => exact congrArg State.mem (load_of_not (.inl hw))
    | start => exact start_mem s
  · intro s t h
    obtain ⟨-, rfl⟩ := hostAct_eq_some h
    exact awaitsImage_iff.2 ⟨rfl, rfl, rfl, rfl, rfl, rfl⟩
  · intro s t image hw h
    obtain ⟨-, rfl⟩ := hostAct_eq_some h
    exact load_awaitsImage hw image
  · intro s t h
    obtain ⟨hr, rfl⟩ := hostAct_eq_some h
    exact not_start_awaitsImage hr

end Sys2Proof.Machine
end
